-- ==== Sys2Proof/Word.lean ====
section
/-! DEFINITION. The word types of the block (00_scope R7, R14) and their plainest arithmetic. -/

namespace Sys2Proof

/-- One buffer element, and one symbol byte (00_scope R7 `BYTE`, 30_encoding R77). -/
abbrev Byte := BitVec 8

/-- One interface register (00_scope R7 `REG_WIDTH`). -/
abbrev Word := BitVec 32

/-- A symbol index or symbol value (30_encoding R77). -/
abbrev Sym := BitVec 6

/-- The group word W (30_encoding R78, R79). -/
abbrev Group := BitVec 24

/-- `zext_32` of a byte (00_scope R14). -/
def zext32 (b : Byte) : Word := b.setWidth 32

end Sys2Proof
end

