-- ==== Sys2Proof/Syntax.lean ====
section
/-! DEFINITION. The commands of the block: one constructor per row of spec/opcode_table.json (30_encoding R74). -/

namespace Sys2Proof

/-- A command. None has an operand: the operands are IN, the latch and the profile (30_encoding R82). -/
inductive Instr where
  /-- `ENC.STD` (41_encode R110). -/
  | encStd
  /-- `ENC.URL` (41_encode R111). -/
  | encUrl
  /-- `DEC` (42_decode R140). -/
  | dec
  deriving DecidableEq, Repr

end Sys2Proof
end

