-- ==== Sys2Proof/Machine/Transaction.lean ====
section
/-! DEFINITION. The host's transactions and the syntax of host programs (20_memory R50 to R53, 30_encoding R83). -/

namespace Sys2Proof.Machine

/-- The three host-visible address spaces (20_memory R50). -/
inductive Space where
  | reg
  | inp
  | out
  deriving DecidableEq, Repr

/-- Direction and data of a transaction (30_encoding R83). An 8-bit write carries its byte in bits [7:0]
(log entry 15). -/
inductive Access where
  | read
  | write (data : Word)
  deriving DecidableEq, Repr

/-- One bus transaction: (space, offset or index, width in bits, direction, data) (30_encoding R83). -/
structure Txn where
  space : Space
  offset : Nat
  width : Nat
  access : Access
  deriving DecidableEq, Repr

/-- One line of what the outside world does to the block: a transaction of the host, the host's `poll`
(30_encoding R83), or the platform's reset input (70_reset R220). -/
inductive Line where
  | txn (t : Txn)
  | poll
  | reset
  deriving DecidableEq, Repr

namespace Line

/-- `wr OFF, VAL` (30_encoding R83). -/
def wr (off : Nat) (val : Word) : Line := .txn ⟨.reg, off, 32, .write val⟩

/-- `rd OFF` (30_encoding R83). -/
def rd (off : Nat) : Line := .txn ⟨.reg, off, 32, .read⟩

/-- `wrin I, BYTE` (30_encoding R83). -/
def wrin (i : Nat) (b : Byte) : Line := .txn ⟨.inp, i, 8, .write (zext32 b)⟩

/-- `rdin I` (30_encoding R83). -/
def rdin (i : Nat) : Line := .txn ⟨.inp, i, 8, .read⟩

/-- `rdout J` (30_encoding R83). -/
def rdout (j : Nat) : Line := .txn ⟨.out, j, 8, .read⟩

/-- The pseudo-instruction `enc.std` (30_encoding R83). -/
def issueEncStd : Line := wr 0x00 0x00000001#32

/-- The pseudo-instruction `enc.url` (30_encoding R83). -/
def issueEncUrl : Line := wr 0x00 0x00000005#32

/-- The pseudo-instruction `dec` (30_encoding R83). -/
def issueDec : Line := wr 0x00 0x00000002#32

/-- The pseudo-instruction `setlen N` (30_encoding R83). -/
def setlen (n : Word) : Line := wr 0x08 n

/-- `load` from index i on: one `wrin` per byte (30_encoding R83). -/
def loadFrom (i : Nat) : List Byte → List Line
  | [] => []
  | b :: bs => wrin i b :: loadFrom (i + 1) bs

/-- The pseudo-instruction `load [b0, b1, ...]` (30_encoding R83). -/
def load (bytes : List Byte) : List Line := loadFrom 0 bytes

end Line

end Sys2Proof.Machine
end

