-- ==== Sys2Proof/WellFormed.lean ====
section
/-! DEFINITION. Which command words and which host transactions have a legal form. -/

namespace Sys2Proof

/-- The fields of a command word (30_encoding R70). -/
structure CommandFields where
  /-- `OP`, bits [1:0]. -/
  op : BitVec 2
  /-- `VAR`, bit [2]. -/
  var : BitVec 1
  /-- Reserved, bits [31:3]. -/
  rsv : BitVec 29
  deriving DecidableEq, Repr

/-- The reserved bits must be 0 (30_encoding R73). -/
def CommandFields.reservedZero (f : CommandFields) : Bool := f.rsv == 0#29

/-- `OP` must be `ENC` (01) or `DEC` (10) (30_encoding R71). -/
def CommandFields.opLegal (f : CommandFields) : Bool := f.op == 1#2 || f.op == 2#2

/-- For `OP = DEC`, `VAR` must be 0 (30_encoding R72). -/
def CommandFields.varLegal (f : CommandFields) : Bool := f.op != 2#2 || f.var == 0#1

/-- The fields of a valid command word (30_encoding R71 to R74). -/
def CommandFields.wf (f : CommandFields) : Bool := f.reservedZero && f.opLegal && f.varLegal

/-- The fields of each command (30_encoding R74, opcode_table.json). -/
def Instr.fields : Instr → CommandFields
  | .encStd => ⟨1#2, 0#1, 0#29⟩
  | .encUrl => ⟨1#2, 1#1, 0#29⟩
  | .dec => ⟨2#2, 0#1, 0#29⟩

/-- A command is well formed when its fields are; the syntax admits no other. -/
def Instr.wf (i : Instr) : Bool := i.fields.wf

namespace Machine

/-- `MAX_OUT_LEN = 4 * ceil(MAX_IN_LEN / 3)` (00_scope R7). -/
def maxOutLen (maxInLen : Nat) : Nat := 4 * ((maxInLen + 2) / 3)

/-- A transaction of a shape that has a meaning, on an instance with the given `MAX_IN_LEN` (20_memory R51 to
R53; the complement of R61's list). -/
def Txn.wf (maxInLen : Nat) (t : Txn) : Bool :=
  match t.space with
  | .reg => t.width == 32 && t.offset % 4 == 0 && decide (t.offset < 0x20)
  | .inp => t.width == 8 && decide (t.offset < maxInLen)
  | .out => t.width == 8 && decide (t.offset < maxOutLen maxInLen)

end Machine

end Sys2Proof
end

