-- ==== Sys2Proof/Decode.lean ====
section
/-! DEFINITION. The command word's decoder and encoder (30_encoding R70 to R74). -/

namespace Sys2Proof

/-- Why a command word is reserved. Whichever applies, the block rejects the word with reason 0x01
(30_encoding R75), so the name is the model's, not the host's to see. -/
inductive DecodeError where
  /-- A bit of [31:3] is set (30_encoding R73). -/
  | reservedBits
  /-- `OP` is 00 or 11 (30_encoding R71). -/
  | reservedOp
  /-- `OP = DEC` with `VAR = 1` (30_encoding R72). -/
  | decWithVariant
  deriving DecidableEq, Repr

/-- The fields of a command word (30_encoding R70). -/
def splitWord (w : Word) : CommandFields :=
  ⟨w.extractLsb' 0 2, w.extractLsb' 2 1, w.extractLsb' 3 29⟩

/-- The command word with the given fields (30_encoding R70). -/
def joinFields (f : CommandFields) : Word := (f.rsv ++ f.var ++ f.op : BitVec (29 + 1 + 2))

/-- The complete decode of a command word (30_encoding R74): the command, or why the word is reserved. -/
def decodeWord (w : Word) : Except DecodeError Instr :=
  let f := splitWord w
  if !f.reservedZero then .error .reservedBits
  else if !f.opLegal then .error .reservedOp
  else if !f.varLegal then .error .decWithVariant
  else if f.op == 2#2 then .ok .dec
  else if f.var == 1#1 then .ok .encUrl
  else .ok .encStd

/-- The command decoded from an instruction of `nbits` bits with value `w`, bit 0 the least significant bit of
the 32-bit word, every bit from `nbits` up 0; a value that does not fit in 32 bits is no command word
(30_encoding R84). -/
def decodeTableWord (nbits w : Nat) : Option Instr :=
  if nbits ≤ 32 ∧ w < 2 ^ nbits then
    match decodeWord (BitVec.ofNat 32 w) with
    | .ok i => some i
    | .error _ => none
  else none

/-- The command word of a command (30_encoding R70, R74). -/
def encode (i : Instr) : Word := joinFields i.fields

end Sys2Proof
end

