-- ==== Sys2Proof/Config.lean ====
section
/-! DEFINITION. What an instance fixes (00_scope R7) and the free values the spec leaves open. -/

namespace Sys2Proof

/-- The values of `DECODE_PROFILE` (00_scope R7, 42_decode R141). -/
inductive Profile where
  | tolerant
  | strict
  deriving DecidableEq, Repr

namespace Config

/-- The largest `MAX_IN_LEN` an instance may have, 3·(2^30 − 1) (00_scope R7). -/
def maxInLenBound : Nat := 0xBFFFFFFD

/-- `MAX_IN_LEN`, OPEN: any natural number up to the bound (00_scope R7, R8; log entry 5). -/
opaque maxInLen : Fin (0xBFFFFFFD + 1)

/-- `DECODE_PROFILE` of this hardware (00_scope R7, 42_decode R141). -/
def profile : Profile := .tolerant

/-- How many of the host's lines come between the acceptance of the k-th command and its core step, where
the schedule held in State does not say: a free value (00_scope R12, 70_reset R237, 93 I17; log entry 3). -/
opaque hostTurns : Nat → Nat

end Config

end Sys2Proof
end

