-- ==== Sys2Proof/Machine/State.lean ====
section
/-! DEFINITION. The state of the block (10_state), of its host and of the choice of who moves; the reasons a
step can stop; the state after reset. -/

namespace Sys2Proof.Machine

/-- The values of `STATUS.STATE` (10_state R23). Encodings 5 to 7 are never produced (93 I11). -/
inductive RunState where
  | idle
  | busy
  | ok
  | error
  | rejected
  deriving DecidableEq, Repr

/-- The two alphabet variants (00_scope R2). -/
inductive Variant where
  | standard
  | urlSafe
  deriving DecidableEq, Repr

/-- The values of `LATCH_OP` (10_state R34). -/
inductive Op where
  | enc
  | dec
  deriving DecidableEq, Repr

/-- A buffer: (index, byte) pairs, indices strictly rising. An unlisted index holds no value (log entry 8). -/
abbrev Memory := List Host.Cell

/-- The machine: the block's registers, buffers and latch, then the model's own fields. -/
structure State where
  /-- `STATUS.STATE` (10_state R23). -/
  status : RunState
  /-- `IN_LEN` (10_state R25). -/
  inLen : Word
  /-- `OUT_LEN` (10_state R26). -/
  outLen : Word
  /-- `ERR_CODE.CODE`; the register's other bits are hardwired 0 (10_state R27). -/
  errCode : Byte
  /-- `ERR_POS` (10_state R28). -/
  errPos : Word
  /-- `CONFIG.PROFILE`, a constant of the instance (10_state R29; log entry 6). -/
  profile : Profile
  /-- `MAX_IN`, a constant of the instance (10_state R30; log entry 5). -/
  maxIn : Word
  /-- The IN buffer (10_state R31). -/
  inBuf : Memory
  /-- The OUT buffer (10_state R32). -/
  outBuf : Memory
  /-- `LATCH_OP` (10_state R34). -/
  latchOp : Op
  /-- `LATCH_VAR` (10_state R34). -/
  latchVar : Variant
  /-- `LATCH_LEN` (10_state R34). -/
  latchLen : Word
  /-- Model's own: the lines still to come from the host and the reset input (log entry 2). -/
  pending : List Line
  /-- Model's own: the words the host's reads have returned, newest first (log entry 2). -/
  returned : List Word
  /-- Model's own: no host read of STATUS has shown STATE ≠ BUSY since the last accepted CMD write
  (70_reset R230, 00_scope R13; log entry 9). -/
  endUnseen : Bool
  /-- Model's own: for each command still to be accepted, how many lines come before its core step
  (log entry 3). -/
  schedule : List Nat
  /-- Model's own: how many lines still come before the running command's core step (log entry 3). -/
  coreWait : Nat
  /-- Model's own: how many commands have drawn their wait from the free constant `Config.hostTurns`
  (log entry 3). -/
  issued : Nat
  deriving DecidableEq, Repr

/-- Why the machine stops with a fault. -/
inductive Fault where
  /-- No agent has an enabled step: the block is not BUSY and no line is pending (00_scope R11). Raised by
  `hostStep`. Safe: the run is over. -/
  | stuck
  /-- A host write to IN[index] between an accepted CMD write and the host's read of STATUS that shows
  STATE ≠ BUSY (70_reset R230). Raised by `writeIn`. Safe: the hardware does something definite. -/
  | inWriteDuringCommand (index : Nat)
  /-- A host read of OUT[index] while BUSY (70_reset R231). Raised by `readOut`. Safe, as above. -/
  | outReadWhileBusy (index : Nat)
  /-- The core step of a command whose input includes IN[index], the lowest such byte, not written since reset
  (70_reset R232). Raised by `coreStep`. Safe: the hardware computes over unspecified bytes. -/
  | unwrittenInput (index : Nat)
  /-- A host read of IN[index], not written since reset (70_reset R233). Raised by `readIn`. Safe. -/
  | inReadNoValue (index : Nat)
  /-- A host read of OUT[index], which is unspecified (70_reset R233, 20_memory R53). Raised by `readOut`. Safe. -/
  | outReadUnspecified (index : Nat)
  deriving DecidableEq, Repr

/-- Why a transaction or an instruction has no meaning. -/
inductive Refusal where
  /-- An instruction without a meaning yet. Raised by no arm of `exec`. Safe. -/
  | notModelled (mnemonic : String)
  /-- `exec` of a command while the block is not BUSY with that command latched: no such core step exists
  (00_scope R10, 41_encode R110, R111, 42_decode R140; log entry 1). Raised by `coreStep`; `step` never calls
  `exec` so. Safe. -/
  | coreStepNotEnabled
  /-- A REG access whose width is not 32 bits (20_memory R61). Raised by `shapeRefusal`. Safe. -/
  | regWidth
  /-- A REG access at an offset that is no multiple of 4 (20_memory R61). Raised by `shapeRefusal`. Safe. -/
  | regMisaligned
  /-- A REG access at an offset ≥ 0x20 (20_memory R61). Raised by `shapeRefusal`. Safe. -/
  | regOutOfRange
  /-- An IN or OUT access whose width is not 8 bits (20_memory R61). Raised by `shapeRefusal`. Safe. -/
  | bufferWidth
  /-- An IN access at an index ≥ MAX_IN_LEN (20_memory R61). Raised by `shapeRefusal`. Safe. -/
  | inOutOfRange
  /-- An OUT access at an index ≥ MAX_OUT_LEN (20_memory R61). Raised by `shapeRefusal`. Safe. -/
  | outOutOfRange
  deriving DecidableEq, Repr

/-- What one step answers. -/
abbrev Result := Host.Outcome State Fault Refusal

/-- The state after reset of an instance with the given `MAX_IN` and `CONFIG.PROFILE` (70_reset R220). The
latch's values are the model's (log entry 7), and so are those of the model's own fields (log entry 18). -/
def State.resetOf (maxIn : Word) (profile : Profile) : State where
  status := .idle
  inLen := 0#32
  outLen := 0#32
  errCode := 0#8
  errPos := 0#32
  profile := profile
  maxIn := maxIn
  inBuf := []
  outBuf := []
  latchOp := .enc
  latchVar := .standard
  latchLen := 0#32
  pending := []
  returned := []
  endUnseen := false
  schedule := []
  coreWait := 0
  issued := 0

/-- The state after reset of this hardware: `MAX_IN_LEN` is OPEN, the profile TOLERANT (70_reset R220,
00_scope R7). -/
def State.reset : State := State.resetOf (BitVec.ofNat 32 Config.maxInLen.val) Config.profile

end Sys2Proof.Machine
end

