-- ==== Sys2Proof/Machine/Flags.lean ====
section
/-! DEFINITION. What the host reads in each register (10_state R22 to R30): `STATUS` is the block's only flag
state (R23). -/

namespace Sys2Proof.Machine

/-- The encoding of `STATUS.STATE` (10_state R23). -/
def RunState.code : RunState → BitVec 3
  | .idle => 0#3
  | .busy => 1#3
  | .ok => 2#3
  | .error => 3#3
  | .rejected => 4#3

/-- The word `STATUS` reads as: bits [31:3] are hardwired to 0 (10_state R23). -/
def statusWord (s : State) : Word := s.status.code.setWidth 32

/-- The word `ERR_CODE` reads as: bits [31:8] are hardwired to 0 (10_state R27). -/
def errCodeWord (s : State) : Word := zext32 s.errCode

/-- The word `CONFIG` reads as: bit 0 is `PROFILE`, the others are hardwired to 0 (10_state R29). -/
def configWord (s : State) : Word :=
  match s.profile with
  | .tolerant => 0x00000000#32
  | .strict => 0x00000001#32

/-- The eight interface registers (10_state R22). -/
inductive Reg where
  | cmd
  | status
  | inLen
  | outLen
  | errCode
  | errPos
  | config
  | maxIn
  deriving DecidableEq, Repr

/-- The register at an aligned offset of REG (10_state R22). -/
def regAt (offset : Nat) : Option Reg :=
  match offset with
  | 0x00 => some .cmd
  | 0x04 => some .status
  | 0x08 => some .inLen
  | 0x0C => some .outLen
  | 0x10 => some .errCode
  | 0x14 => some .errPos
  | 0x18 => some .config
  | 0x1C => some .maxIn
  | _ => none

/-- What a host read of a register returns; `CMD` holds no value and reads 0 (10_state R22, R24). -/
def regWord (r : Reg) (s : State) : Word :=
  match r with
  | .cmd => 0x00000000#32
  | .status => statusWord s
  | .inLen => s.inLen
  | .outLen => s.outLen
  | .errCode => errCodeWord s
  | .errPos => s.errPos
  | .config => configWord s
  | .maxIn => s.maxIn

end Sys2Proof.Machine
end

