-- ==== Sys2Proof/Machine/Ops.lean ====
section
/-! DEFINITION. The named operations over the buffers and the registers: buffer bytes, the clearing and the writing
of a command's results, the two errors, the latch, reset. -/

namespace Sys2Proof.Machine

/-! ### Buffers -/

/-- What an unlisted index reads as: no value (10_state R31, R32; log entry 8). -/
def Memory.unlisted : Option Byte := none

/-- `MemRead(buffer, a, 1)` (00_scope R15): the byte at an index, if it holds a value. -/
def Memory.read : Memory → Nat → Option Byte
  | [], _ => Memory.unlisted
  | (k, v) :: rest, a => if k = a then some v else Memory.read rest a

/-- `MemWrite(buffer, a, 1, v)` (00_scope R15). -/
def Memory.write : Memory → Nat → Byte → Memory
  | [], a, v => [(a, v)]
  | (k, u) :: rest, a, v =>
    if a < k then (a, v) :: (k, u) :: rest
    else if a = k then (a, v) :: rest
    else (k, u) :: Memory.write rest a v

/-- The canonical form: indices strictly rising. Every listed byte holds a value, so none equals what an unlisted
index reads as. -/
def Memory.wf : Memory → Bool
  | [] => true
  | [_] => true
  | (j, _) :: (k, v) :: rest => decide (j < k) && Memory.wf ((k, v) :: rest)

/-- The `n` bytes from index `start` on, or the lowest of those indices that holds no value. -/
def Memory.readBytes (m : Memory) : (start n : Nat) → Except Nat (List Byte)
  | _, 0 => .ok []
  | start, n + 1 =>
    match m.read start with
    | none => .error start
    | some b =>
      match Memory.readBytes m (start + 1) n with
      | .error a => .error a
      | .ok bs => .ok (b :: bs)

/-- Write bytes at consecutive indices from `start` on. -/
def Memory.writeBytes (m : Memory) : (start : Nat) → List Byte → Memory
  | _, [] => m
  | start, b :: bs => Memory.writeBytes (m.write start b) (start + 1) bs

/-! ### Results of a command -/

/-- What a CMD write clears first: the result registers, and every OUT byte (30_encoding R75). -/
def clearResults (s : State) : State :=
  { s with outLen := 0#32, errCode := 0#8, errPos := 0#32, outBuf := [] }

/-- The end of a command that succeeds with output `out` (41_encode R110, R111, 42_decode R140): output byte j
goes to OUT index j (20_memory R54). -/
def completeOk (out : List Byte) (s : State) : State :=
  { s with
    outBuf := s.outBuf.writeBytes 0 out
    outLen := BitVec.ofNat 32 out.length
    errCode := 0#8
    errPos := 0#32
    status := .ok }

/-! ### The two errors (60_exceptions). There is no trap and no return from one (R199, R200). -/

/-- The error kind of decode: the offending byte and its index (60_exceptions R190). -/
structure InvalidSymbol where
  code : Byte
  pos : Nat
  deriving DecidableEq, Repr

/-- `raise InvalidSymbol(code, pos)` (60_exceptions R192). -/
def raiseInvalidSymbol (e : InvalidSymbol) (s : State) : State :=
  { s with
    errCode := e.code
    errPos := BitVec.ofNat 32 e.pos
    outLen := 0#32
    outBuf := []
    status := .error }

/-- The reject reason of a reserved word (60_exceptions R195). -/
def reasonReserved : Byte := 0x01#8

/-- The reject reason of `IN_LEN` > `MAX_IN_LEN` (60_exceptions R195). -/
def reasonLength : Byte := 0x02#8

/-- `raise CommandRejected(reason)` (60_exceptions R196). -/
def raiseCommandRejected (reason : Byte) (s : State) : State :=
  { s with errCode := reason, errPos := 0#32, outLen := 0#32, status := .rejected }

/-! ### The command latch -/

/-- `LATCH_OP` of a command (30_encoding R74). -/
def commandOp : Instr → Op
  | .encStd => .enc
  | .encUrl => .enc
  | .dec => .dec

/-- `LATCH_VAR` after a command is latched over an earlier value; `DEC` writes none (30_encoding R74, R75;
log entry 17). -/
def commandVar (i : Instr) (old : Variant) : Variant :=
  match i with
  | .encStd => .standard
  | .encUrl => .urlSafe
  | .dec => old

/-- The command the latch holds (41_encode R110, R111, 42_decode R140: the enabling conditions). -/
def latchedInstr (s : State) : Instr :=
  match s.latchOp, s.latchVar with
  | .enc, .standard => .encStd
  | .enc, .urlSafe => .encUrl
  | .dec, _ => .dec

/-- How many lines come before the core step of the command accepted next: the head of the schedule, or the free
value where the schedule says nothing (00_scope R12, 70_reset R237; log entry 3). -/
def drawWait (s : State) : Nat :=
  match s.schedule with
  | [] => Config.hostTurns s.issued
  | k :: _ => k

/-- Acceptance of a command: the latch is written and STATE becomes BUSY (30_encoding R75). -/
def acceptCommand (i : Instr) (s : State) : State :=
  { s with
    latchOp := commandOp i
    latchVar := commandVar i s.latchVar
    latchLen := s.inLen
    status := .busy
    endUnseen := true
    coreWait := drawWait s
    schedule := s.schedule.tail
    issued := if s.schedule.isEmpty then s.issued + 1 else s.issued }

/-! ### Reset -/

/-- The reset input: every register to its reset value, every buffer byte without a value, the constants of the
instance unchanged (70_reset R220, R221). The lines still to come, the words already returned and the schedule
belong to the outside world and stay (log entry 13). -/
def resetBlock (s : State) : State :=
  { State.resetOf s.maxIn s.profile with
    pending := s.pending
    returned := s.returned
    schedule := s.schedule
    issued := s.issued }

end Sys2Proof.Machine
end

