-- ==== Sys2Proof/Machine/Bus.lean ====
section
/-! DEFINITION. What one line of the host or the reset input does to the block (20_memory, 30_encoding R75, R76,
70_reset). -/

namespace Sys2Proof.Machine

/-- The word a host read returns goes to the host; no read changes the block (20_memory R60; log entry 2). -/
def returnWord (w : Word) (s : State) : State := { s with returned := w :: s.returned }

/-- A host write of `w` to CMD: the issue of a command, ignored while BUSY; the word is checked before the length
(30_encoding R75, R76, 60_exceptions R198). -/
def writeCmd (w : Word) (s : State) : State :=
  if s.status = .busy then s
  else
    match decodeWord w with
    | .error _ => raiseCommandRejected reasonReserved (clearResults s)
    | .ok i =>
      if s.inLen > s.maxIn then raiseCommandRejected reasonLength (clearResults s)
      else acceptCommand i (clearResults s)

/-- A host write to a register: CMD issues, IN_LEN stores all 32 bits, every other write is ignored
(10_state R22, R24, R25). -/
def writeReg (r : Reg) (w : Word) (s : State) : State :=
  match r with
  | .cmd => writeCmd w s
  | .inLen => { s with inLen := w }
  | .status | .outLen | .errCode | .errPos | .config | .maxIn => s

/-- A host read of a register (10_state R22). A read of STATUS that shows STATE ≠ BUSY tells the host that its
command has ended (00_scope R13, 70_reset R230; log entry 9). -/
def readReg (r : Reg) (s : State) : State :=
  let t := returnWord (regWord r s) s
  if r = .status ∧ s.status ≠ .busy then { t with endUnseen := false } else t

/-- A host write to IN (20_memory R52, 70_reset R230; log entry 9). -/
def writeIn (i : Nat) (b : Byte) (s : State) : Result :=
  if s.status = .busy ∨ s.endUnseen = true then .fault (.inWriteDuringCommand i)
  else .next { s with inBuf := s.inBuf.write i b }

/-- A host read of IN (20_memory R52, 70_reset R233). -/
def readIn (i : Nat) (s : State) : Result :=
  match s.inBuf.read i with
  | none => .fault (.inReadNoValue i)
  | some b => .next (returnWord (zext32 b) s)

/-- A host read of OUT: defined only in OK and below OUT_LEN (20_memory R53, 70_reset R231, R233). -/
def readOut (j : Nat) (s : State) : Result :=
  if s.status = .busy then .fault (.outReadWhileBusy j)
  else if s.status = .ok ∧ j < s.outLen.toNat then
    match s.outBuf.read j with
    | none => .fault (.outReadUnspecified j)
    | some b => .next (returnWord (zext32 b) s)
  else .fault (.outReadUnspecified j)

/-- Why the model gives a transaction's shape no meaning, if it gives none (20_memory R61; log entry 10). -/
def shapeRefusal (t : Txn) (s : State) : Option Refusal :=
  match t.space with
  | .reg =>
    if t.width ≠ 32 then some .regWidth
    else if t.offset % 4 ≠ 0 then some .regMisaligned
    else if t.offset ≥ 0x20 then some .regOutOfRange
    else none
  | .inp =>
    if t.width ≠ 8 then some .bufferWidth
    else if t.offset ≥ s.maxIn.toNat then some .inOutOfRange
    else none
  | .out =>
    if t.width ≠ 8 then some .bufferWidth
    else if t.offset ≥ maxOutLen s.maxIn.toNat then some .outOutOfRange
    else none

/-- A transaction of a shape that has a meaning (20_memory R51 to R53). -/
def access (t : Txn) (s : State) : Result :=
  match t.space, t.access with
  | .reg, .read =>
    match regAt t.offset with
    | some r => .next (readReg r s)
    | none => .refused .regOutOfRange
  | .reg, .write w =>
    match regAt t.offset with
    | some r => .next (writeReg r w s)
    | none => .refused .regOutOfRange
  | .inp, .read => readIn t.offset s
  | .inp, .write w => writeIn t.offset (w.setWidth 8) s
  | .out, .read => readOut t.offset s
  | .out, .write _ => .next s

/-- One bus transaction; its shape is judged first (20_memory R61; log entry 10). -/
def transact (t : Txn) (s : State) : Result :=
  match shapeRefusal t s with
  | some r => .refused r
  | none => access t s

/-- `poll`: read STATUS, and once more as long as it shows BUSY (30_encoding R83). -/
def pollStatus (s : State) : State :=
  let t := readReg .status s
  if s.status = .busy then { t with pending := .poll :: t.pending } else t

/-- One line, already taken off the pending lines. -/
def performLine (l : Line) (s : State) : Result :=
  match l with
  | .txn t => transact t s
  | .poll => .next (pollStatus s)
  | .reset => .next (resetBlock s)

/-- The step of the outside world: its next line; with no line pending the machine is stuck (00_scope R10, R11;
log entry 12). -/
def hostStep (s : State) : Result :=
  match s.pending with
  | [] => .fault .stuck
  | l :: rest => performLine l { s with pending := rest, coreWait := s.coreWait - 1 }

/-- Whether the core moves next: while BUSY, once the lines that come before its step are done, or when no line
is pending (00_scope R10, R12; log entry 3). -/
def coreMoves (s : State) : Bool :=
  s.status == .busy && (s.coreWait == 0 || s.pending.isEmpty)

/-- The state in which the command of a valid word is accepted and its core step comes next (log entry 4). -/
def issueNext (i : Instr) (s : State) : State :=
  { acceptCommand i (clearResults s) with
    coreWait := 0
    schedule := s.schedule
    issued := s.issued }

/-- The state in which a write of a word to CMD is the next step (log entry 4). -/
def writeNext (w : Word) (s : State) : State :=
  { s with
    status := if s.status = .busy then .idle else s.status
    pending := Line.wr 0x00 w :: s.pending }

end Sys2Proof.Machine
end

