-- ==== Sys2Proof/Machine/Alphabet.lean ====
section
/-! DEFINITION. The alphabet ROMs and the classification of bytes (40_alphabet). The ROMs are constants (10_state
R33, 70_reset R223). -/

namespace Sys2Proof.Machine

/-- `FWD_STD`, the Standard forward table (40_alphabet R90). -/
def fwdStd : List Byte :=
  [0x41#8, 0x42#8, 0x43#8, 0x44#8, 0x45#8, 0x46#8, 0x47#8, 0x48#8] ++
  [0x49#8, 0x4A#8, 0x4B#8, 0x4C#8, 0x4D#8, 0x4E#8, 0x4F#8, 0x50#8] ++
  [0x51#8, 0x52#8, 0x53#8, 0x54#8, 0x55#8, 0x56#8, 0x57#8, 0x58#8] ++
  [0x59#8, 0x5A#8, 0x61#8, 0x62#8, 0x63#8, 0x64#8, 0x65#8, 0x66#8] ++
  [0x67#8, 0x68#8, 0x69#8, 0x6A#8, 0x6B#8, 0x6C#8, 0x6D#8, 0x6E#8] ++
  [0x6F#8, 0x70#8, 0x71#8, 0x72#8, 0x73#8, 0x74#8, 0x75#8, 0x76#8] ++
  [0x77#8, 0x78#8, 0x79#8, 0x7A#8, 0x30#8, 0x31#8, 0x32#8, 0x33#8] ++
  [0x34#8, 0x35#8, 0x36#8, 0x37#8, 0x38#8, 0x39#8, 0x2B#8, 0x2F#8]

/-- `FWD_URL`, the URLSafe forward table: `FWD_STD` but for indices 62 and 63 (40_alphabet R91). -/
def fwdUrl : List Byte := fwdStd.take 62 ++ [0x2D#8, 0x5F#8]

/-- `Fwd(var, i)` (40_alphabet R92). -/
def fwd (var : Variant) (i : Sym) : Byte :=
  match var with
  | .standard => fwdStd.getD i.toNat 0#8
  | .urlSafe => fwdUrl.getD i.toNat 0#8

/-- `REV`, the reverse table, in the rows of 40_alphabet R93: 0x00 to 0x3F a symbol value, 0xFE the sentinel WS,
0xFF the sentinel INVALID. -/
def revTable : List Byte :=
  [0xFF#8, 0xFF#8, 0xFF#8, 0xFF#8, 0xFF#8, 0xFF#8, 0xFF#8, 0xFF#8, 0xFF#8, 0xFE#8, 0xFE#8, 0xFF#8, 0xFF#8, 0xFE#8, 0xFF#8, 0xFF#8] ++
  [0xFF#8, 0xFF#8, 0xFF#8, 0xFF#8, 0xFF#8, 0xFF#8, 0xFF#8, 0xFF#8, 0xFF#8, 0xFF#8, 0xFF#8, 0xFF#8, 0xFF#8, 0xFF#8, 0xFF#8, 0xFF#8] ++
  [0xFE#8, 0xFF#8, 0xFF#8, 0xFF#8, 0xFF#8, 0xFF#8, 0xFF#8, 0xFF#8, 0xFF#8, 0xFF#8, 0xFF#8, 62#8, 0xFF#8, 62#8, 0xFF#8, 63#8] ++
  [52#8, 53#8, 54#8, 55#8, 56#8, 57#8, 58#8, 59#8, 60#8, 61#8, 0xFF#8, 0xFF#8, 0xFF#8, 0xFF#8, 0xFF#8, 0xFF#8] ++
  [0xFF#8, 0#8, 1#8, 2#8, 3#8, 4#8, 5#8, 6#8, 7#8, 8#8, 9#8, 10#8, 11#8, 12#8, 13#8, 14#8] ++
  [15#8, 16#8, 17#8, 18#8, 19#8, 20#8, 21#8, 22#8, 23#8, 24#8, 25#8, 0xFF#8, 0xFF#8, 0xFF#8, 0xFF#8, 63#8] ++
  [0xFF#8, 26#8, 27#8, 28#8, 29#8, 30#8, 31#8, 32#8, 33#8, 34#8, 35#8, 36#8, 37#8, 38#8, 39#8, 40#8] ++
  [41#8, 42#8, 43#8, 44#8, 45#8, 46#8, 47#8, 48#8, 49#8, 50#8, 51#8, 0xFF#8, 0xFF#8, 0xFF#8, 0xFF#8, 0xFF#8] ++
  [0xFF#8, 0xFF#8, 0xFF#8, 0xFF#8, 0xFF#8, 0xFF#8, 0xFF#8, 0xFF#8, 0xFF#8, 0xFF#8, 0xFF#8, 0xFF#8, 0xFF#8, 0xFF#8, 0xFF#8, 0xFF#8] ++
  [0xFF#8, 0xFF#8, 0xFF#8, 0xFF#8, 0xFF#8, 0xFF#8, 0xFF#8, 0xFF#8, 0xFF#8, 0xFF#8, 0xFF#8, 0xFF#8, 0xFF#8, 0xFF#8, 0xFF#8, 0xFF#8] ++
  [0xFF#8, 0xFF#8, 0xFF#8, 0xFF#8, 0xFF#8, 0xFF#8, 0xFF#8, 0xFF#8, 0xFF#8, 0xFF#8, 0xFF#8, 0xFF#8, 0xFF#8, 0xFF#8, 0xFF#8, 0xFF#8] ++
  [0xFF#8, 0xFF#8, 0xFF#8, 0xFF#8, 0xFF#8, 0xFF#8, 0xFF#8, 0xFF#8, 0xFF#8, 0xFF#8, 0xFF#8, 0xFF#8, 0xFF#8, 0xFF#8, 0xFF#8, 0xFF#8] ++
  [0xFF#8, 0xFF#8, 0xFF#8, 0xFF#8, 0xFF#8, 0xFF#8, 0xFF#8, 0xFF#8, 0xFF#8, 0xFF#8, 0xFF#8, 0xFF#8, 0xFF#8, 0xFF#8, 0xFF#8, 0xFF#8] ++
  [0xFF#8, 0xFF#8, 0xFF#8, 0xFF#8, 0xFF#8, 0xFF#8, 0xFF#8, 0xFF#8, 0xFF#8, 0xFF#8, 0xFF#8, 0xFF#8, 0xFF#8, 0xFF#8, 0xFF#8, 0xFF#8] ++
  [0xFF#8, 0xFF#8, 0xFF#8, 0xFF#8, 0xFF#8, 0xFF#8, 0xFF#8, 0xFF#8, 0xFF#8, 0xFF#8, 0xFF#8, 0xFF#8, 0xFF#8, 0xFF#8, 0xFF#8, 0xFF#8] ++
  [0xFF#8, 0xFF#8, 0xFF#8, 0xFF#8, 0xFF#8, 0xFF#8, 0xFF#8, 0xFF#8, 0xFF#8, 0xFF#8, 0xFF#8, 0xFF#8, 0xFF#8, 0xFF#8, 0xFF#8, 0xFF#8]

/-- `REV[c]` (40_alphabet R93). -/
def rev (c : Byte) : Byte := revTable.getD c.toNat 0xFF#8

/-- The pad character `=` (40_alphabet R96). -/
def padByte : Byte := 0x3D#8

/-- The class of a byte (40_alphabet R97, 00_scope R18). -/
inductive ByteClass where
  | sym (v : Sym)
  | pad
  | ws
  | inv
  deriving DecidableEq, Repr

/-- `Classify(c, profile)` (40_alphabet R97). -/
def classify (c : Byte) (profile : Profile) : ByteClass :=
  if c = padByte then .pad
  else if rev c ≤ 0x3F#8 then .sym ((rev c).setWidth 6)
  else if rev c = 0xFE#8 ∧ profile = .tolerant then .ws
  else .inv

end Sys2Proof.Machine
end

