-- ==== Sys2Proof/Machine/Operands.lean ====
section
/-! DEFINITION. The operand formats: the 24-bit group word of encode and of decode (30_encoding R78 to R81,
20_memory R55, R56), the grouping of a buffer, and the core step's fetch of its input. -/

namespace Sys2Proof.Machine

/-! ### The group word -/

/-- `W = {b0, b1, b2}` (30_encoding R78). -/
def packBytes (b0 b1 b2 : Byte) : Group := (b0 ++ b1 ++ b2 : BitVec (8 + 8 + 8))

/-- `W = {v0, v1, v2, v3}` (30_encoding R79). -/
def packSyms (v0 v1 v2 v3 : Sym) : Group := (v0 ++ v1 ++ v2 ++ v3 : BitVec (6 + 6 + 6 + 6))

/-- `index_j = (W >> (18 - 6j)) & 0x3F`, for j = 0 to 3 (30_encoding R80). -/
def groupIndex (w : Group) (j : Nat) : Sym := w.extractLsb' (18 - 6 * j) 6

/-- `byte_i = (W >> (16 - 8i)) & 0xFF`, for i = 0 to 2 (30_encoding R80). -/
def groupByte (w : Group) (i : Nat) : Byte := w.extractLsb' (16 - 8 * i) 8

/-! ### Grouping -/

/-- The consecutive groups of up to 3 elements (41_encode R112). -/
def groups3 {α : Type} : List α → List (List α)
  | [] => []
  | [a] => [[a]]
  | [a, b] => [[a, b]]
  | a :: b :: c :: rest => [a, b, c] :: groups3 rest

/-- The consecutive groups of up to 4 elements (42_decode R150). -/
def groups4 {α : Type} : List α → List (List α)
  | [] => []
  | [a] => [[a]]
  | [a, b] => [[a, b]]
  | [a, b, c] => [[a, b, c]]
  | a :: b :: c :: d :: rest => [a, b, c, d] :: groups4 rest

/-! ### The core step's input -/

/-- `[MemRead(IN, i, 1) for i in 0 .. LATCH_LEN-1]`, or the lowest such index whose byte holds no value
(20_memory R54, 70_reset R232). -/
def coreInput (s : State) : Except Nat (List Byte) := s.inBuf.readBytes 0 s.latchLen.toNat

/-- The core step of a command: enabled when STATE = BUSY and the latch holds that command; it faults over an
unwritten IN byte, and else ends the command with the state `finish` gives for the input bytes (00_scope R10,
41_encode R110, R111, 42_decode R140, 70_reset R232; log entry 1). -/
def coreStep (i : Instr) (finish : List Byte → State → State) (s : State) : Result :=
  if s.status = .busy ∧ latchedInstr s = i then
    match coreInput s with
    | .error a => .fault (.unwrittenInput a)
    | .ok data => .next (finish data s)
  else .refused .coreStepNotEnabled

end Sys2Proof.Machine
end

