-- ==== Sys2Proof/Machine/DecodeFamily.lean ====
section
/-! DEFINITION. The decode family: `DEC` (42_decode). -/

namespace Sys2Proof.Machine

/-- The error of a misplaced pad: `=` at the first pad of the input (42_decode R147). -/
def misplacedPad (firstPad : Nat) : InvalidSymbol := ⟨padByte, firstPad⟩

/-- The rest of `Scan` from index `i` on, with the first pad and the number of pads seen so far: the symbol values
with their positions, or the first error met (42_decode R143 to R147). -/
def scanFrom (profile : Profile) (i : Nat) (firstPad : Option Nat) (padCount : Nat) :
    List Byte → Except InvalidSymbol (List (Sym × Nat))
  | [] => .ok []
  | c :: rest =>
    match classify c profile with
    | .ws => scanFrom profile (i + 1) firstPad padCount rest
    | .inv =>
      match firstPad with
      | some p => .error (misplacedPad p)
      | none => .error ⟨c, i⟩
    | .pad =>
      if padCount + 1 > 2 then .error (misplacedPad (firstPad.getD i))
      else scanFrom profile (i + 1) (some (firstPad.getD i)) (padCount + 1) rest
    | .sym v =>
      match firstPad with
      | some p => .error (misplacedPad p)
      | none =>
        match scanFrom profile (i + 1) none padCount rest with
        | .error e => .error e
        | .ok syms => .ok ((v, i) :: syms)

/-- `Scan(data, profile)` (42_decode R143). -/
def scan (profile : Profile) (data : List Byte) : Except InvalidSymbol (List (Sym × Nat)) :=
  scanFrom profile 0 none 0 data

/-- The group word of a decode group; a missing value is 0 (42_decode R153, 30_encoding R79). -/
def decodeGroupWord (vals : List Sym) : Group :=
  packSyms (vals.getD 0 0#6) (vals.getD 1 0#6) (vals.getD 2 0#6) (vals.getD 3 0#6)

/-- `DecodeGroup(vals, k)`, with k the group's length: k - 1 bytes (42_decode R153). -/
def decodeGroup (vals : List Sym) : List Byte :=
  (List.range (vals.length - 1)).map fun i => groupByte (decodeGroupWord vals) i

/-- The bytes of the symbol values a clean scan returns: the outputs of the groups, in input order
(42_decode R150, R159). -/
def unpackSyms (vals : List Sym) : List Byte := (groups4 vals).flatMap decodeGroup

/-- `Decode(data, profile)` (42_decode R159); a lone final symbol is reported with its own byte and position
(R155). -/
def decodeBuffer (profile : Profile) (data : List Byte) : Except InvalidSymbol (List Byte) :=
  match scan profile data with
  | .error e => .error e
  | .ok syms =>
    match syms.length % 4, syms.getLast? with
    | 1, some (_, p) => .error ⟨data.getD p 0#8, p⟩
    | _, _ => .ok (unpackSyms (syms.map Prod.fst))

/-- The end of a `DEC` command: InvalidSymbol or success (42_decode R140, 60_exceptions R192). -/
def finishDec (data : List Byte) (s : State) : State :=
  match decodeBuffer s.profile data with
  | .error e => raiseInvalidSymbol e s
  | .ok out => completeOk out s

/-- `DEC`: decode a symbol buffer (42_decode R140). -/
def execDec (s : State) : Result := coreStep .dec finishDec s

end Sys2Proof.Machine
end

