-- ==== Sys2Proof/Machine/EncodeFamily.lean ====
section
/-! DEFINITION. The encode family: `ENC.STD` and `ENC.URL` (41_encode). -/

namespace Sys2Proof.Machine

/-- The group word of an encode group; a missing trailing byte contributes zero bits (41_encode R113). -/
def encodeGroupWord (grp : List Byte) : Group :=
  packBytes (grp.getD 0 0x00#8) (grp.getD 1 0x00#8) (grp.getD 2 0x00#8)

/-- The k + 1 meaningful symbols of a group of k bytes (41_encode R113). -/
def meaningfulSymbols (var : Variant) (grp : List Byte) : List Byte :=
  (List.range (grp.length + 1)).map fun j => fwd var (groupIndex (encodeGroupWord grp) j)

/-- The padding of a group of k bytes: Standard fills it to 4 symbols, URLSafe has none (41_encode R113). -/
def groupPadding (var : Variant) (k : Nat) : List Byte :=
  match var with
  | .standard => List.replicate (3 - k) padByte
  | .urlSafe => []

/-- `EncodeGroup(grp, k, var)`, with k the group's length (41_encode R113). -/
def encodeGroup (var : Variant) (grp : List Byte) : List Byte :=
  meaningfulSymbols var grp ++ groupPadding var grp.length

/-- `Encode(data, var)`: the outputs of the groups, in input order (41_encode R119, R112). -/
def encodeBuffer (var : Variant) (data : List Byte) : List Byte :=
  (groups3 data).flatMap (encodeGroup var)

/-- `ENC.STD`: encode with the Standard alphabet and padding (41_encode R110). -/
def execEncStd (s : State) : Result :=
  coreStep .encStd (fun data t => completeOk (encodeBuffer .standard data) t) s

/-- `ENC.URL`: encode with the URLSafe alphabet and no padding (41_encode R111). -/
def execEncUrl (s : State) : Result :=
  coreStep .encUrl (fun data t => completeOk (encodeBuffer .urlSafe data) t) s

end Sys2Proof.Machine
end

