-- ==== Sys2Proof/Machine/Dispatch.lean ====
section
/-! DEFINITION. One arm per command. -/

namespace Sys2Proof.Machine

/-- The core step of a command (00_scope R10). -/
def exec (i : Instr) (s : State) : Host.Outcome State Fault Refusal :=
  match i with
  | .encStd => Sys2Proof.Machine.execEncStd s
  | .encUrl => Sys2Proof.Machine.execEncUrl s
  | .dec => Sys2Proof.Machine.execDec s

end Sys2Proof.Machine
end

