-- ==== Sys2Proof/Machine/Step.lean ====
section
/-! DEFINITION. One step of the machine: the core's or the outside world's (00_scope R10). -/

namespace Sys2Proof.Machine

/-- One step: the core performs the latched command, or the next line of the outside world is performed. -/
def step (s : State) : Host.Outcome State Fault Refusal :=
  if coreMoves s then exec (latchedInstr s) s else hostStep s

/-- The state with a command where step takes its next one: the block fetches nothing (10_state R21), so the
command stands in the latch, its CMD write accepted, with the core to move; a word that is no command stands in a
pending CMD write (log entry 4). -/
def State.withFetchWord (s : State) (nbits w : Nat) : State :=
  match decodeTableWord nbits w with
  | some i => issueNext i s
  | none => writeNext (BitVec.ofNat 32 w) s

/-- The state with a host program to run, and for its accepted commands the numbers of lines that come before
their core steps (log entries 3, 4). -/
def State.withProgram (s : State) (lines : List Line) (schedule : List Nat) : State :=
  { s with pending := lines, schedule := schedule }

end Sys2Proof.Machine
end

