-- ==== Sys2Proof/Safety.lean ====
section
/-! DEFINITION. What counts as a safe run: the host's duties (70_reset R230 to R233), and the invariant that every
step keeps (60_exceptions R197, 10_state R26, R31, R32). -/

namespace Sys2Proof.Machine

/-- IN bytes `0` to `n − 1` hold the bytes of `data`, with `n` its length (20_memory R54). -/
def inputIs (s : State) (n : Nat) (data : List Byte) : Prop :=
  data.length = n ∧ ∀ k, k < n → s.inBuf.read k = data[k]?

/-- IN bytes `0` to `n − 1` are written since reset (70_reset R232). -/
def inputWritten (s : State) (n : Nat) : Prop := ∀ k, k < n → s.inBuf.read k ≠ none

/-- The line is a write to CMD. -/
def Line.isCmdWrite : Line → Bool
  | .txn ⟨.reg, 0x00, 32, .write _⟩ => true
  | _ => false

/-- The host's duty about one transaction of a legal shape, in the state it meets (70_reset R230 to R233). -/
def keepsDuty (t : Txn) (s : State) : Prop :=
  match t.space, t.access with
  | .inp, .write _ => s.status ≠ .busy ∧ s.endUnseen = false
  | .inp, .read => s.inBuf.read t.offset ≠ none
  | .out, .read => s.status = .ok ∧ t.offset < s.outLen.toNat
  | .out, .write _ => True
  | .reg, .read => True
  | .reg, .write w =>
    t.offset = 0x00 → s.status ≠ .busy → (∃ i, decodeWord w = .ok i) → s.inLen ≤ s.maxIn →
      inputWritten s s.inLen.toNat

/-- A line the host may issue: of a legal shape (20_memory R61) and within the host's duties. -/
def lineSafe (l : Line) (s : State) : Prop :=
  match l with
  | .txn t => t.wf s.maxIn.toNat = true ∧ keepsDuty t s
  | .poll => True
  | .reset => True

/-- The input of the running command, if one runs, is written (70_reset R232). -/
def inputReady (s : State) : Prop := s.status = .busy → inputWritten s s.latchLen.toNat

/-- The results that go with each value of STATE (60_exceptions R197, 10_state R32, 60_exceptions R192). -/
def resultsFit (s : State) : Prop :=
  match s.status with
  | .idle => s.errCode = 0#8 ∧ s.errPos = 0#32 ∧ s.outLen = 0#32 ∧ s.outBuf = []
  | .busy =>
    s.errCode = 0#8 ∧ s.errPos = 0#32 ∧ s.outLen = 0#32 ∧ s.outBuf = [] ∧ s.latchLen ≤ s.maxIn
  | .ok =>
    s.errCode = 0#8 ∧ s.errPos = 0#32 ∧ s.outLen.toNat ≤ maxOutLen s.maxIn.toNat ∧
      ∀ j, s.outBuf.read j ≠ none ↔ j < s.outLen.toNat
  | .error =>
    s.latchOp = .dec ∧ s.errPos < s.latchLen ∧ s.outLen = 0#32 ∧ s.outBuf = []
  | .rejected =>
    (s.errCode = reasonReserved ∨ s.errCode = reasonLength) ∧ s.errPos = 0#32 ∧ s.outLen = 0#32 ∧
      s.outBuf = []

/-- The invariant of the machine. -/
structure MachineInv (s : State) : Prop where
  /-- IN is in canonical form. -/
  inWf : s.inBuf.wf = true
  /-- OUT is in canonical form. -/
  outWf : s.outBuf.wf = true
  /-- IN has no byte at or above MAX_IN_LEN (10_state R31). -/
  inBound : ∀ i, s.inBuf.read i ≠ none → i < s.maxIn.toNat
  /-- MAX_IN_LEN is within its bound (00_scope R7). -/
  maxBound : s.maxIn.toNat ≤ Config.maxInLenBound
  /-- The result registers and OUT fit STATE (60_exceptions R197). -/
  results : resultsFit s

/-- A run of `k` steps that neither faults nor is refused. -/
def runsSafely (step : State → Result) : Nat → State → Prop
  | 0, _ => True
  | k + 1, s => ∃ t, step s = .next t ∧ runsSafely step k t

end Sys2Proof.Machine
end

