-- ==== Sys2Proof/Certificates/Slice0/Obligations.lean ====
section
/-! DEFINITION. The statements for the provers. Each names the rules of spec/ it formalises. -/

open Sys2Proof Sys2Proof.Machine

namespace Sys2Proof.Claims

/-- The state the next line meets once it is taken off the pending lines. -/
def afterTake (s : State) (rest : List Line) : State :=
  { s with pending := rest, coreWait := s.coreWait - 1 }

/-- The outside world moves next, and its next line is `l`. -/
def hostTurn (s : State) (l : Line) (rest : List Line) : Prop :=
  coreMoves s = false ∧ s.pending = l :: rest

/-- The frame of a core step: nothing but the result registers, STATE and OUT may differ. -/
def onlyResultsChange (s t : State) : Prop :=
  t = { s with
    status := t.status
    outLen := t.outLen
    errCode := t.errCode
    errPos := t.errPos
    outBuf := t.outBuf }

/-- The state a command that succeeds with output `out` leaves: OUT holds the output from index 0 on, and every
other OUT byte reads as before. -/
def endsOk (out : List Byte) (s t : State) : Prop :=
  t.status = .ok ∧ t.outLen = BitVec.ofNat 32 out.length ∧ t.errCode = 0#8 ∧ t.errPos = 0#32 ∧
    (∀ j, j < out.length → t.outBuf.read j = out[j]?) ∧
    (∀ j, out.length ≤ j → t.outBuf.read j = s.outBuf.read j) ∧ onlyResultsChange s t

/-- The state an InvalidSymbol leaves: no OUT byte holds a value. -/
def endsInvalidSymbol (e : InvalidSymbol) (s t : State) : Prop :=
  t.status = .error ∧ t.errCode = e.code ∧ t.errPos = BitVec.ofNat 32 e.pos ∧ t.outLen = 0#32 ∧
    (∀ j, t.outBuf.read j = none) ∧ onlyResultsChange s t

/-- The frame of a host read: nothing of the block changes; the word goes to the host, which may learn from STATUS
that its command has ended. -/
def onlyHostLearns (s t : State) (rest : List Line) (w : Word) : Prop :=
  t = { s with
    pending := rest
    coreWait := s.coreWait - 1
    returned := w :: s.returned
    endUnseen := t.endUnseen }

/-- The byte at an index of a buffer has a class. -/
def classAt (p : Profile) (data : List Byte) (i : Nat) (cl : ByteClass) : Prop :=
  ∃ c, data[i]? = some c ∧ classify c p = cl

/-- The byte at an index of a buffer is a symbol of either alphabet. -/
def symAt (p : Profile) (data : List Byte) (i : Nat) : Prop := ∃ v, classAt p data i (.sym v)

/-- No byte before an index is a pad or of class INV. -/
def cleanBefore (p : Profile) (data : List Byte) (i : Nat) : Prop :=
  ∀ k, k < i → ¬ classAt p data k .pad ∧ ¬ classAt p data k .inv

/-- The four whitespace codes (40_alphabet R93, R98). -/
def wsCodes : List Byte := [0x09#8, 0x0A#8, 0x0D#8, 0x20#8]

/-- The byte that URLSafe has where Standard has `+` or `/` (41_encode R120). -/
def toUrlSafe (c : Byte) : Byte := if c = 0x2B#8 then 0x2D#8 else if c = 0x2F#8 then 0x5F#8 else c

/-- The symbol value of an encoder's symbol: its `REV` entry (42_decode R154). -/
def symValue (c : Byte) : Sym := (rev c).setWidth 6

end Sys2Proof.Claims

open Sys2Proof.Claims

/-! ### The command word -/

/-- 30_encoding R74: each command's word decodes to it and no other word does; every other word is reserved. -/
def Obligations.CommandWordDecodeIsExact : Prop :=
  (∀ i : Instr, i.wf = true → decodeWord (encode i) = .ok i) ∧
  (∀ w : Word,
    (decodeWord w = .ok .encStd ↔ w = 0x00000001#32) ∧
    (decodeWord w = .ok .encUrl ↔ w = 0x00000005#32) ∧
    (decodeWord w = .ok .dec ↔ w = 0x00000002#32) ∧
    ((∃ e, decodeWord w = .error e) ↔
      w ≠ 0x00000001#32 ∧ w ≠ 0x00000005#32 ∧ w ≠ 0x00000002#32))

/-- 30_encoding R74 and 95_test_vectors K1 to K11: a few words written out bit by bit. -/
def Obligations.SampleWordsDecodeRight : Prop :=
  decodeWord 0b00000000000000000000000000000001#32 = .ok .encStd ∧
  decodeWord 0b00000000000000000000000000000101#32 = .ok .encUrl ∧
  decodeWord 0b00000000000000000000000000000010#32 = .ok .dec ∧
  decodeWord 0b00000000000000000000000000000110#32 = .error .decWithVariant ∧
  decodeWord 0b00000000000000000000000000000011#32 = .error .reservedOp ∧
  decodeWord 0b10000000000000000000000000000001#32 = .error .reservedBits

/-! ### Who moves -/

/-- 00_scope R10 with the model's rule of who moves (log entry 3): the core's step is the latched command's; and a
command placed by `withFetchWord` is run by the very next step. -/
def Obligations.StepRunsLatchedCommand : Prop :=
  (∀ s : State, s.status = .busy → s.coreWait = 0 ∨ s.pending = [] →
    step s = exec (latchedInstr s) s) ∧
  (∀ (s : State) (nbits w : Nat) (i : Instr), decodeTableWord nbits w = some i →
    latchedInstr (s.withFetchWord nbits w) = i ∧
    step (s.withFetchWord nbits w) = exec i (s.withFetchWord nbits w))

/-- 00_scope R10, R11, 20_memory R62, in the model's form (log entries 2, 3, 12): where the core does not move, the
outside world's next line is performed, one at a time, in order; the machine is stuck exactly when the block is not
BUSY and no line is pending. -/
def Obligations.StepPerformsNextLineOrIsStuck : Prop :=
  (∀ (s : State) (l : Line) (rest : List Line),
    s.pending = l :: rest → s.status ≠ .busy ∨ s.coreWait ≠ 0 →
    step s = performLine l (afterTake s rest)) ∧
  (∀ s : State, step s = .fault .stuck ↔ s.status ≠ .busy ∧ s.pending = [])

/-- 00_scope R12, 70_reset R237, in the model's form (log entry 3): a step of the outside world taken while BUSY
either resets the block or leaves the same command running with fewer lines to come before its core step. -/
def Obligations.CoreStepComesAfterFinitelyManyLines : Prop :=
  ∀ s t : State, s.status = .busy → coreMoves s = false → step s = .next t →
    t.status = .idle ∨
    (t.status = .busy ∧ latchedInstr t = latchedInstr s ∧ t.latchLen = s.latchLen ∧
      t.coreWait < s.coreWait)

/-! ### The commands -/

/-- 41_encode R110: `ENC.STD` completes. -/
def Obligations.EncStdCompletes : Prop :=
  encode .encStd = 0x00000001#32 ∧
  ∀ (s : State) (data : List Byte),
    s.status = .busy → s.latchOp = .enc → s.latchVar = .standard → inputIs s s.latchLen.toNat data →
    ∃ t, exec .encStd s = .next t ∧ endsOk (encodeBuffer .standard data) s t ∧
      t.outLen = BitVec.ofNat 32 (4 * ((data.length + 2) / 3)) ∧
      (data.length % 3 = 1 → [padByte, padByte] <:+ encodeBuffer .standard data) ∧
      (data.length % 3 = 2 → [padByte] <:+ encodeBuffer .standard data)

/-- 41_encode R111: `ENC.URL` completes. -/
def Obligations.EncUrlCompletes : Prop :=
  encode .encUrl = 0x00000005#32 ∧
  ∀ (s : State) (data : List Byte),
    s.status = .busy → s.latchOp = .enc → s.latchVar = .urlSafe → inputIs s s.latchLen.toNat data →
    ∃ t, exec .encUrl s = .next t ∧ endsOk (encodeBuffer .urlSafe data) s t ∧
      t.outLen = BitVec.ofNat 32 ((4 * data.length + 2) / 3) ∧
      padByte ∉ encodeBuffer .urlSafe data

/-- 42_decode R140, 60_exceptions R192: `DEC` completes, with its output or with InvalidSymbol, whose position is an
index of the input. -/
def Obligations.DecCompletes : Prop :=
  encode .dec = 0x00000002#32 ∧
  ∀ (s : State) (data : List Byte),
    s.status = .busy → s.latchOp = .dec → inputIs s s.latchLen.toNat data →
    ∃ t, exec .dec s = .next t ∧
      match decodeBuffer s.profile data with
      | .ok out => endsOk out s t
      | .error e => endsInvalidSymbol e s t ∧ e.pos < s.latchLen.toNat

/-- 41_encode R117, 42_decode R162: over the empty buffer every command ends in OK with OUT_LEN = 0 and writes no
OUT byte. -/
def Obligations.EmptyInputGivesEmptyOutput : Prop :=
  (∀ var, encodeBuffer var [] = []) ∧ (∀ p, decodeBuffer p [] = .ok []) ∧
  ∀ (s : State), s.status = .busy → s.latchLen = 0#32 →
    ∃ t, exec (latchedInstr s) s = .next t ∧ t.status = .ok ∧ t.outLen = 0#32 ∧ t.outBuf = s.outBuf

/-- The frame of the three commands: a core step that answers a next state has read IN bytes 0 to LATCH_LEN − 1,
stores exactly the command's output bytes to OUT, or leaves no OUT byte a value, and changes nothing else but STATE,
OUT_LEN, ERR_CODE and ERR_POS (20_memory R54, 60_exceptions R192, 10_state R25, R31). -/
def Obligations.CoreStepFrame : Prop :=
  ∀ (i : Instr) (s t : State), exec i s = .next t →
    ∃ data, inputIs s s.latchLen.toNat data ∧
      match i with
      | .encStd => endsOk (encodeBuffer .standard data) s t
      | .encUrl => endsOk (encodeBuffer .urlSafe data) s t
      | .dec =>
        match decodeBuffer s.profile data with
        | .ok out => endsOk out s t
        | .error e => endsInvalidSymbol e s t

/-- 70_reset R232: the core step of a command whose input includes an unwritten byte faults, at the lowest such index.
41_encode R110, R111, 42_decode R140 in the model's form (log entry 1): a core step of a command exists only while
BUSY with that command latched. -/
def Obligations.CoreStepStopsOverUnwrittenInput : Prop :=
  (∀ (i : Instr) (s : State) (k : Nat),
    s.status = .busy → latchedInstr s = i → k < s.latchLen.toNat → s.inBuf.read k = none →
    (∀ j, j < k → s.inBuf.read j ≠ none) →
    exec i s = .fault (.unwrittenInput k)) ∧
  (∀ (i : Instr) (s : State), s.status ≠ .busy ∨ latchedInstr s ≠ i →
    exec i s = .refused .coreStepNotEnabled)

/-- 41_encode R123: a command's result depends only on the latch, the profile and IN bytes 0 to LATCH_LEN − 1. -/
def Obligations.ResultDependsOnlyOnInput : Prop :=
  ∀ (i : Instr) (s s' t : State),
    s'.status = .busy → latchedInstr s' = i → s'.latchLen = s.latchLen → s'.profile = s.profile →
    (∀ k, k < s.latchLen.toNat → s'.inBuf.read k = s.inBuf.read k) →
    exec i s = .next t →
    ∃ t', exec i s' = .next t' ∧ t'.status = t.status ∧ t'.outLen = t.outLen ∧
      t'.errCode = t.errCode ∧ t'.errPos = t.errPos ∧
      ∀ j, j < t.outLen.toNat → t'.outBuf.read j = t.outBuf.read j

/-! ### Issue of a command -/

/-- 30_encoding R75, 60_exceptions R195, R196: a CMD write while not BUSY clears the results and is accepted, or
rejected with reason 0x01 for a reserved word, else 0x02 for too long an input. -/
def Obligations.CmdWriteIssuesCommand : Prop :=
  ∀ (s : State) (w : Word) (rest : List Line),
    s.status ≠ .busy → s.pending = Line.wr 0x00 w :: rest →
    ∃ t, step s = .next t ∧
      if w = 0x00000001#32 ∨ w = 0x00000005#32 ∨ w = 0x00000002#32 then
        if s.maxIn < s.inLen then
          t = { afterTake s rest with
            outLen := 0#32, errCode := 0x02#8, errPos := 0#32, outBuf := [], status := .rejected }
        else
          t = { afterTake s rest with
            outLen := 0#32, errCode := 0#8, errPos := 0#32, outBuf := [], status := .busy
            latchOp := if w = 0x00000002#32 then .dec else .enc
            latchVar :=
              if w = 0x00000001#32 then .standard else if w = 0x00000005#32 then .urlSafe else s.latchVar
            latchLen := s.inLen
            endUnseen := t.endUnseen, coreWait := t.coreWait, schedule := t.schedule, issued := t.issued }
      else
        t = { afterTake s rest with
          outLen := 0#32, errCode := 0x01#8, errPos := 0#32, outBuf := [], status := .rejected }

/-- 30_encoding R76, 70_reset R235: a CMD write while BUSY changes nothing. -/
def Obligations.CmdWriteWhileBusyIsIgnored : Prop :=
  ∀ (s : State) (w : Word) (rest : List Line),
    s.status = .busy → hostTurn s (Line.wr 0x00 w) rest → step s = .next (afterTake s rest)

/-! ### Registers -/

/-- 10_state R22, R24, R23, R27, R29, R30: what a host read of each register returns, and that it changes nothing of
the block. -/
def Obligations.RegisterReadsReturnTheirWords : Prop :=
  ∀ (s : State) (o : Nat) (rest : List Line), hostTurn s (Line.rd o) rest → o % 4 = 0 → o < 0x20 →
    ∃ t w, step s = .next t ∧ onlyHostLearns s t rest w ∧
      (o = 0x00 → w = 0#32) ∧
      (o = 0x04 → w = match s.status with
        | .idle => 0#32 | .busy => 1#32 | .ok => 2#32 | .error => 3#32 | .rejected => 4#32) ∧
      (o = 0x08 → w = s.inLen) ∧ (o = 0x0C → w = s.outLen) ∧
      (o = 0x10 → w.toNat = s.errCode.toNat) ∧ (o = 0x14 → w = s.errPos) ∧
      (o = 0x18 → w = if s.profile = .strict then 1#32 else 0#32) ∧ (o = 0x1C → w = s.maxIn)

/-- 20_memory R60, last sentence: no read changes the block. -/
def Obligations.ReadsChangeNothingOfTheBlock : Prop :=
  ∀ (s t : State) (x : Txn) (rest : List Line),
    hostTurn s (.txn x) rest → x.access = .read → step s = .next t →
    ∃ w, onlyHostLearns s t rest w

/-- 10_state R22, 20_memory R53: writes to the read-only registers and to OUT change nothing. -/
def Obligations.IgnoredWritesChangeNothing : Prop :=
  ∀ (s : State) (rest : List Line) (w : Word),
    (∀ o ∈ [0x04, 0x0C, 0x10, 0x14, 0x18, 0x1C],
      hostTurn s (Line.wr o w) rest → step s = .next (afterTake s rest)) ∧
    (∀ j, j < maxOutLen s.maxIn.toNat → hostTurn s (.txn ⟨.out, j, 8, .write w⟩) rest →
      step s = .next (afterTake s rest))

/-- 10_state R25: a host write to IN_LEN stores all 32 bits and changes nothing else, and nothing but a host write
to it or reset changes it. -/
def Obligations.InLenHoldsTheLastWrite : Prop :=
  (∀ (s : State) (w : Word) (rest : List Line), hostTurn s (Line.wr 0x08 w) rest →
    step s = .next { afterTake s rest with inLen := w }) ∧
  (∀ s t : State, step s = .next t → t.inLen ≠ s.inLen →
    coreMoves s = false ∧
    ((∃ rest, s.pending = Line.wr 0x08 t.inLen :: rest) ∨
      (∃ rest, s.pending = .reset :: rest ∧ t.inLen = 0#32)))

/-- 10_state R37, R23: STATE moves only along the edges of the table. -/
def Obligations.StatusMovesOnlyAlongItsEdges : Prop :=
  ∀ s t : State, step s = .next t → t.status ≠ s.status →
    (t.status = .idle ∧ coreMoves s = false ∧ s.pending.head? = some .reset) ∨
    (s.status ≠ .busy ∧ (t.status = .busy ∨ t.status = .rejected) ∧
      ∃ w rest, s.pending = Line.wr 0x00 w :: rest) ∨
    (s.status = .busy ∧ coreMoves s = true ∧
      (t.status = .ok ∨ (t.status = .error ∧ latchedInstr s = .dec)))

/-- 10_state R29, R30, R36: no step changes CONFIG or MAX_IN. -/
def Obligations.InstanceConstantsNeverChange : Prop :=
  ∀ s t : State, step s = .next t → t.profile = s.profile ∧ t.maxIn = s.maxIn

/-- 20_memory R63, 60_exceptions R200: once a command has ended, its results stay until the next CMD write or
reset. -/
def Obligations.ResultsStayUntilNextCommand : Prop :=
  ∀ (s t : State) (l : Line) (rest : List Line),
    s.status ≠ .busy → s.pending = l :: rest → l.isCmdWrite = false → l ≠ .reset → step s = .next t →
    t.status = s.status ∧ t.outLen = s.outLen ∧ t.errCode = s.errCode ∧ t.errPos = s.errPos ∧
      t.outBuf = s.outBuf

/-- 10_state R34: the latch is written only by an accepted CMD write; reset leaves it open (log entry 7). -/
def Obligations.LatchChangesOnlyAtAcceptance : Prop :=
  ∀ s t : State, step s = .next t →
    (t.latchOp ≠ s.latchOp ∨ t.latchVar ≠ s.latchVar ∨ t.latchLen ≠ s.latchLen) →
    s.pending.head? = some .reset ∨
    (s.status ≠ .busy ∧ t.status = .busy ∧ t.latchLen = s.inLen ∧ s.inLen ≤ s.maxIn ∧
      ∃ w rest, s.pending = Line.wr 0x00 w :: rest ∧ decodeWord w = .ok (latchedInstr t))

/-- 70_reset R234: a read of OUT_LEN, ERR_CODE or ERR_POS while BUSY returns 0. -/
def Obligations.EarlyResultReadsReturnZero : Prop :=
  ∀ (s : State) (o : Nat) (rest : List Line), MachineInv s → s.status = .busy →
    o = 0x0C ∨ o = 0x10 ∨ o = 0x14 → hostTurn s (Line.rd o) rest →
    ∃ t, step s = .next t ∧ onlyHostLearns s t rest 0#32

/-! ### Buffers, refusals and the host's duties -/

/-- 20_memory R61: exactly the transactions of the listed shapes are refused, and nothing else the outside world
does is. -/
def Obligations.RefusesExactlyIllShapedTransactions : Prop :=
  (∀ (s : State) (x : Txn) (rest : List Line), hostTurn s (.txn x) rest →
    ((∃ r, step s = .refused r) ↔
      (x.space = .reg ∧ x.width ≠ 32) ∨ (x.space = .reg ∧ x.offset % 4 ≠ 0) ∨
      (x.space = .reg ∧ 0x20 ≤ x.offset) ∨ (x.space ≠ .reg ∧ x.width ≠ 8) ∨
      (x.space = .inp ∧ s.maxIn.toNat ≤ x.offset) ∨
      (x.space = .out ∧ 4 * ((s.maxIn.toNat + 2) / 3) ≤ x.offset))) ∧
  (∀ (s : State) (r : Refusal), step s = .refused r → ∃ x rest, hostTurn s (.txn x) rest)

/-- 20_memory R52: a host write to IN outside the window of a command, whose end is the model's reading (log entry 9),
stores the byte there and nowhere else; a host read returns the byte. -/
def Obligations.InBufferStoresAndReturnsBytes : Prop :=
  (∀ (s : State) (i : Nat) (b : Byte) (rest : List Line),
    i < s.maxIn.toNat → s.status ≠ .busy → s.endUnseen = false → s.pending = Line.wrin i b :: rest →
    ∃ t, step s = .next t ∧ t.inBuf.read i = some b ∧ (∀ k, k ≠ i → t.inBuf.read k = s.inBuf.read k) ∧
      t = { afterTake s rest with inBuf := t.inBuf }) ∧
  (∀ (s : State) (i : Nat) (b : Byte) (rest : List Line),
    i < s.maxIn.toNat → s.inBuf.read i = some b → hostTurn s (Line.rdin i) rest →
    step s = .next { afterTake s rest with returned := b.setWidth 32 :: s.returned })

/-- 10_state R31, 20_memory R63: an IN byte changes only by reset or by a host write to that index, which comes at no
time while a command runs. That no write comes after the core step either, until the host has seen STATE ≠ BUSY
(`endUnseen = false`), is the model's reading of 70_reset R230's window (log entry 9). -/
def Obligations.InChangesOnlyByHostWriteOrReset : Prop :=
  ∀ (s t : State) (k : Nat), step s = .next t → t.inBuf.read k ≠ s.inBuf.read k →
    coreMoves s = false ∧
    ((s.pending.head? = some .reset ∧ t.inBuf.read k = none) ∨
      (s.status ≠ .busy ∧ s.endUnseen = false ∧ k < s.maxIn.toNat ∧
        ∃ w rest, s.pending = .txn ⟨.inp, k, 8, .write w⟩ :: rest ∧
          t.inBuf.read k = some (w.setWidth 8)))

/-- 10_state R32: an OUT byte changes only in the core step, which writes output below OUT_LEN, or loses its value: at
a CMD write while not BUSY, at an InvalidSymbol or at reset. -/
def Obligations.OutChangesOnlyByCoreOrLosesItsValue : Prop :=
  ∀ (s t : State) (j : Nat), MachineInv s → step s = .next t → t.outBuf.read j ≠ s.outBuf.read j →
    (coreMoves s = true ∧ t.status = .ok ∧ j < t.outLen.toNat ∧ t.outBuf.read j ≠ none) ∨
    (t.outBuf.read j = none ∧
      ((coreMoves s = true ∧ t.status = .error) ∨ s.pending.head? = some .reset ∨
        (s.status ≠ .busy ∧ ∃ w rest, s.pending = Line.wr 0x00 w :: rest)))

/-- 20_memory R53: in OK, a host read of OUT below OUT_LEN returns the byte there. -/
def Obligations.OutBufferReturnsTheOutput : Prop :=
  ∀ (s : State) (j : Nat) (rest : List Line),
    MachineInv s → s.status = .ok → j < s.outLen.toNat → s.pending = Line.rdout j :: rest →
    ∃ b, s.outBuf.read j = some b ∧
      step s = .next { afterTake s rest with returned := b.setWidth 32 :: s.returned }

/-- 70_reset R231, R233 for the reads; the clause on IN writes is the model's reading of R230's window (log entry 9),
so the whole is derived: an IN write between an accepted CMD write and the host's read of STATUS
that shows STATE ≠ BUSY faults; so do an OUT read while BUSY, a read of an IN byte without a value, and a read of an
OUT byte outside the output of a command that ended in OK. -/
def Obligations.HostDutyBreachesFault : Prop :=
  (∀ (s : State) (i : Nat) (b : Byte) (rest : List Line), i < s.maxIn.toNat →
    s.status = .busy ∨ s.endUnseen = true → hostTurn s (Line.wrin i b) rest →
    step s = .fault (.inWriteDuringCommand i)) ∧
  (∀ (s : State) (j : Nat) (rest : List Line), j < maxOutLen s.maxIn.toNat →
    s.status = .busy → hostTurn s (Line.rdout j) rest →
    step s = .fault (.outReadWhileBusy j)) ∧
  (∀ (s : State) (i : Nat) (rest : List Line), i < s.maxIn.toNat → s.inBuf.read i = none →
    hostTurn s (Line.rdin i) rest → step s = .fault (.inReadNoValue i)) ∧
  (∀ (s : State) (j : Nat) (rest : List Line), j < maxOutLen s.maxIn.toNat → s.status ≠ .busy →
    (s.status ≠ .ok ∨ s.outLen.toNat ≤ j) → s.pending = Line.rdout j :: rest →
    step s = .fault (.outReadUnspecified j))

/-- 70_reset R230, 00_scope R13, in the model's reading (log entry 9): an accepted CMD write opens the window in which the host must not write IN, and
exactly a STATUS read that shows STATE ≠ BUSY, or reset, closes it. -/
def Obligations.InWriteWindowOpensAndCloses : Prop :=
  ∀ s t : State, step s = .next t →
    (t.status = .busy → s.status ≠ .busy → t.endUnseen = true) ∧
    (s.endUnseen = true → t.endUnseen = false →
      (t.status ≠ .busy ∧
        (s.pending.head? = some (Line.rd 0x04) ∨ s.pending.head? = some .poll ∨
          s.pending.head? = some .reset))) ∧
    (coreMoves s = false →
      (s.status ≠ .busy ∧
        (s.pending.head? = some (Line.rd 0x04) ∨ s.pending.head? = some .poll)) ∨
        s.pending.head? = some .reset →
      t.endUnseen = false)

/-- 30_encoding R83, as one line of the model (log entry 2): `poll` reads STATUS, stays the next line while BUSY, and is done once STATE ≠ BUSY. -/
def Obligations.PollRepeatsWhileBusy : Prop :=
  ∀ (s : State) (rest : List Line), hostTurn s .poll rest →
    ∃ t, step s = .next t ∧ onlyHostLearns s t t.pending (statusWord s) ∧
      t.pending = if s.status = .busy then .poll :: rest else rest

/-! ### Reset and the invariant -/

/-- 70_reset R220, R221: reset in any state, a running command's included, gives every register its reset value,
leaves the instance's constants and gives every buffer byte no value. -/
def Obligations.ResetGivesResetValues : Prop :=
  ∀ (s : State) (rest : List Line), hostTurn s .reset rest →
    ∃ t, step s = .next t ∧ statusWord t = 0#32 ∧ regWord .cmd t = 0#32 ∧ t.inLen = 0#32 ∧
      t.outLen = 0#32 ∧ errCodeWord t = 0#32 ∧ t.errPos = 0#32 ∧ configWord t = configWord s ∧
      t.maxIn = s.maxIn ∧ (∀ i, t.inBuf.read i = none) ∧ (∀ j, t.outBuf.read j = none) ∧
      coreMoves t = false

/-- The state after reset of this hardware: the register values of 70_reset R220, CONFIG = 0 (10_state R29), and the
invariant. -/
def Obligations.ResetStateMeetsInvariant : Prop :=
  MachineInv State.reset ∧ inputReady State.reset ∧ statusWord State.reset = 0#32 ∧
    State.reset.inLen = 0#32 ∧ State.reset.outLen = 0#32 ∧ errCodeWord State.reset = 0#32 ∧
    State.reset.errPos = 0#32 ∧ configWord State.reset = 0#32 ∧
    State.reset.maxIn.toNat = Config.maxInLen.val

/-- Every step keeps the invariant: both buffers in canonical form and within their capacity, and the results of
60_exceptions R197 for each value of STATE (10_state R26, R31, R32, 41_encode R124, 42_decode R161). -/
def Obligations.StepKeepsInvariant : Prop :=
  ∀ s t : State, MachineInv s → step s = .next t → MachineInv t

/-- 70_reset R230 to R233, 00_scope R11: as long as the host's lines are well shaped and keep its duties, every step
the outside world or the core takes gives a next state, and the invariant and the written input are kept. -/
def Obligations.DutifulHostIsNeverStopped : Prop :=
  ∀ s : State, MachineInv s → inputReady s →
    (s.status = .busy ∨ s.pending ≠ []) →
    (coreMoves s = false → ∀ l, s.pending.head? = some l → lineSafe l s) →
    ∃ t, step s = .next t ∧ MachineInv t ∧ inputReady t

/-! ### Alphabet -/

/-- 40_alphabet R90, R91, R94: the forward tables hold A to Z, a to z, 0 to 9 in order, then the two symbols that
differ; the reverse table inverts both, and no code but the alphabets' maps to a symbol value. -/
def Obligations.TablesHoldTheAlphabets : Prop :=
  (∀ (var : Variant) (i : Sym),
    (fwd var i).toNat =
      if i.toNat < 26 then 0x41 + i.toNat
      else if i.toNat < 52 then 0x61 + (i.toNat - 26)
      else if i.toNat < 62 then 0x30 + (i.toNat - 52)
      else match var with
        | .standard => if i.toNat = 62 then 0x2B else 0x2F
        | .urlSafe => if i.toNat = 62 then 0x2D else 0x5F) ∧
  (∀ (var : Variant) (i : Sym), (rev (fwd var i)).toNat = i.toNat) ∧
  (rev 0x2B#8 = 62#8 ∧ rev 0x2D#8 = 62#8 ∧ rev 0x2F#8 = 63#8 ∧ rev 0x5F#8 = 63#8) ∧
  (∀ c : Byte, (rev c).toNat ≤ 63 → ∃ var i, fwd var i = c)

/-- 40_alphabet R97, R98, R99: the class of every byte. -/
def Obligations.EveryByteHasItsClass : Prop :=
  ∀ (c : Byte) (p : Profile),
    (classify c p = .pad ↔ c = 0x3D#8) ∧
    (classify c p = .ws ↔ p = .tolerant ∧ c ∈ wsCodes) ∧
    (∀ v : Sym, classify c p = .sym v ↔ ∃ var, fwd var v = c) ∧
    (c.toNat < 0x20 ∨ c = 0x7F#8 → c ∉ wsCodes → classify c p = .inv) ∧
    (0x80 ≤ c.toNat → classify c p = .inv)

/-! ### Encode -/

/-- 30_encoding R78, R79: the fields of the group word, as encode reads it (three bytes in, four indices out) and as
decode reads it (four values in, three bytes out). -/
def Obligations.GroupWordFields : Prop :=
  (∀ b0 b1 b2 : Byte,
    (packBytes b0 b1 b2).toNat = 65536 * b0.toNat + 256 * b1.toNat + b2.toNat ∧
    (groupIndex (packBytes b0 b1 b2) 0).toNat = b0.toNat / 4 ∧
    (groupIndex (packBytes b0 b1 b2) 1).toNat = b0.toNat % 4 * 16 + b1.toNat / 16 ∧
    (groupIndex (packBytes b0 b1 b2) 2).toNat = b1.toNat % 16 * 4 + b2.toNat / 64 ∧
    (groupIndex (packBytes b0 b1 b2) 3).toNat = b2.toNat % 64) ∧
  (∀ v0 v1 v2 v3 : Sym,
    (packSyms v0 v1 v2 v3).toNat =
      262144 * v0.toNat + 4096 * v1.toNat + 64 * v2.toNat + v3.toNat ∧
    (groupByte (packSyms v0 v1 v2 v3) 0).toNat = v0.toNat * 4 + v1.toNat / 16 ∧
    (groupByte (packSyms v0 v1 v2 v3) 1).toNat = v1.toNat % 16 * 16 + v2.toNat / 4 ∧
    (groupByte (packSyms v0 v1 v2 v3) 2).toNat = v2.toNat % 4 * 64 + v3.toNat)

/-- 30_encoding R80: every field is a logical shift and a mask. -/
def Obligations.FieldsAreShiftAndMask : Prop :=
  (∀ (w : Group) (j : Nat), j < 4 → groupIndex w j = ((w >>> (18 - 6 * j)) &&& 0x3F#24).setWidth 6) ∧
  (∀ (w : Group) (i : Nat), i < 3 → groupByte w i = ((w >>> (16 - 8 * i)) &&& 0xFF#24).setWidth 8)

/-- 41_encode R113: the symbols of a group of 1, 2 or 3 bytes, computed from the bytes, and its padding. -/
def Obligations.EncodeGroupSymbols : Prop :=
  ∀ (var : Variant) (a b c : Byte),
    let sym := fun n : Nat => fwd var (BitVec.ofNat 6 n)
    let pads := fun n : Nat => if var = .standard then List.replicate n 0x3D#8 else []
    encodeGroup var [a] = [sym (a.toNat / 4), sym (a.toNat % 4 * 16)] ++ pads 2 ∧
    encodeGroup var [a, b] =
      [sym (a.toNat / 4), sym (a.toNat % 4 * 16 + b.toNat / 16), sym (b.toNat % 16 * 4)] ++ pads 1 ∧
    encodeGroup var [a, b, c] =
      [sym (a.toNat / 4), sym (a.toNat % 4 * 16 + b.toNat / 16),
        sym (b.toNat % 16 * 4 + c.toNat / 64), sym (c.toNat % 64)]

/-- 41_encode R112, 42_decode R150: group g of a buffer is its next up to 3 (up to 4) elements, and there is no
other group. -/
def Obligations.GroupsAreConsecutive : Prop :=
  ∀ (data : List Byte) (syms : List Sym) (g : Nat),
    (groups3 data)[g]? = (if 3 * g < data.length then some ((data.drop (3 * g)).take 3) else none) ∧
    (groups4 syms)[g]? = (if 4 * g < syms.length then some ((syms.drop (4 * g)).take 4) else none)

/-- 41_encode R114: the output lengths of both variants, and the number of `=` the Standard output has. -/
def Obligations.EncodeOutputLength : Prop :=
  ∀ data : List Byte,
    (encodeBuffer .standard data).length = 4 * ((data.length + 2) / 3) ∧
    (encodeBuffer .urlSafe data).length = (4 * data.length + 2) / 3 ∧
    (encodeBuffer .urlSafe data).length + (3 - data.length % 3) % 3 = 4 * ((data.length + 2) / 3) ∧
    (encodeBuffer .standard data).count padByte = (3 - data.length % 3) % 3

/-- 41_encode R115, R118: the Standard output is symbols of the Standard alphabet followed by 0, 1 or 2 pads; the
URLSafe output is symbols of the URLSafe alphabet. -/
def Obligations.EncodeOutputShape : Prop :=
  ∀ data : List Byte,
    (encodeBuffer .standard data).length % 4 = 0 ∧
    (∃ body, encodeBuffer .standard data = body ++ List.replicate ((3 - data.length % 3) % 3) padByte ∧
      padByte ∉ body ∧ ∀ c ∈ body, ∃ i, fwd .standard i = c) ∧
    padByte ∉ encodeBuffer .urlSafe data ∧ ∀ c ∈ encodeBuffer .urlSafe data, ∃ i, fwd .urlSafe i = c

/-- 41_encode R120: the URLSafe output is the Standard output without its trailing pads, `+` and `/` replaced. -/
def Obligations.VariantsDifferOnlyAsStated : Prop :=
  ∀ data : List Byte,
    encodeBuffer .urlSafe data =
      ((encodeBuffer .standard data).rdropWhile (fun c => c = padByte)).map toUrlSafe

/-- 41_encode R121: the last meaningful symbol of a short group: of 1 byte, index 0, 16, 32 or 48 and so `A`, `Q`,
`g` or `w`; of 2 bytes, an index that is a multiple of 4. -/
def Obligations.ShortGroupLastSymbol : Prop :=
  (∀ a : Byte, (groupIndex (encodeGroupWord [a]) 1).toNat ∈ [0, 16, 32, 48] ∧
    ∀ var, (meaningfulSymbols var [a])[1]? = some (fwd var (groupIndex (encodeGroupWord [a]) 1)) ∧
      fwd var (groupIndex (encodeGroupWord [a]) 1) ∈ [0x41#8, 0x51#8, 0x67#8, 0x77#8]) ∧
  (∀ a b : Byte, (groupIndex (encodeGroupWord [a, b]) 2).toNat % 4 = 0 ∧
    ∀ var, (meaningfulSymbols var [a, b])[2]? = some (fwd var (groupIndex (encodeGroupWord [a, b]) 2)))

/-- 41_encode R122: decoding an encoder's output gives the input back, for both variants and both profiles. -/
def Obligations.DecodeInvertsEncode : Prop :=
  ∀ (p : Profile) (var : Variant) (data : List Byte),
    decodeBuffer p (encodeBuffer var data) = .ok data

/-- 41_encode R124, 42_decode R161: the output fits OUT. -/
def Obligations.OutputFitsOut : Prop :=
  ∀ (data : List Byte) (n : Nat), data.length ≤ n →
    (∀ var, (encodeBuffer var data).length ≤ maxOutLen n) ∧
    (∀ p out, decodeBuffer p data = .ok out →
      out.length ≤ 3 * data.length / 4 ∧ out.length ≤ maxOutLen n)

/-! ### Decode -/

/-- 42_decode R153, R157: the bytes of a group of 2, 3 or 4 symbol values, computed from the values; the bits of a
short group that no byte holds are ignored. -/
def Obligations.DecodeGroupBytes : Prop :=
  (∀ v0 v1 v2 v3 : Sym,
    decodeGroup [v0, v1] = [BitVec.ofNat 8 (v0.toNat * 4 + v1.toNat / 16)] ∧
    decodeGroup [v0, v1, v2] =
      [BitVec.ofNat 8 (v0.toNat * 4 + v1.toNat / 16),
        BitVec.ofNat 8 (v1.toNat % 16 * 16 + v2.toNat / 4)] ∧
    decodeGroup [v0, v1, v2, v3] =
      [BitVec.ofNat 8 (v0.toNat * 4 + v1.toNat / 16),
        BitVec.ofNat 8 (v1.toNat % 16 * 16 + v2.toNat / 4),
        BitVec.ofNat 8 (v2.toNat % 4 * 64 + v3.toNat)]) ∧
  (∀ v0 v1 v1' : Sym, v1.toNat / 16 = v1'.toNat / 16 →
    decodeGroup [v0, v1] = decodeGroup [v0, v1']) ∧
  (∀ v0 v1 v2 v2' : Sym, v2.toNat / 4 = v2'.toNat / 4 →
    decodeGroup [v0, v1, v2] = decodeGroup [v0, v1, v2'])

/-- 42_decode R154: decoding a group's meaningful symbols gives the group back. -/
def Obligations.DecodeGroupInvertsEncodeGroup : Prop :=
  ∀ (var : Variant) (grp : List Byte), 1 ≤ grp.length → grp.length ≤ 3 →
    decodeGroup (((encodeGroup var grp).take (grp.length + 1)).map symValue) = grp

/-- 42_decode R156, R155: the output length, and that a clean scan decodes exactly when no symbol is left alone. -/
def Obligations.DecodeOutputLength : Prop :=
  ∀ (p : Profile) (data : List Byte) (syms : List (Sym × Nat)), scan p data = .ok syms →
    (syms.length % 4 ≠ 1 → ∃ out, decodeBuffer p data = .ok out ∧ out.length = 3 * syms.length / 4) ∧
    (∀ v q, syms.length % 4 = 1 → syms.getLast? = some (v, q) →
      ∃ c, data[q]? = some c ∧ classify c p = .sym v ∧ decodeBuffer p data = .error ⟨c, q⟩)

/-- 42_decode R143: a clean scan returns exactly the symbols of the input, in order, with their positions. -/
def Obligations.ScanReturnsTheSymbols : Prop :=
  ∀ (p : Profile) (data : List Byte) (syms : List (Sym × Nat)), scan p data = .ok syms →
    (∀ v q, (v, q) ∈ syms ↔ classAt p data q (.sym v)) ∧ (syms.map Prod.snd).Pairwise (· < ·)

/-- 60_exceptions R190, R191: an error reports a byte of the input by its own code and index, in one of exactly three
cases, and its code tells which. -/
def Obligations.ErrorCodeTellsTheCase : Prop :=
  ∀ (p : Profile) (data : List Byte) (e : InvalidSymbol), decodeBuffer p data = .error e →
    data[e.pos]? = some e.code ∧
    ((e.code = 0x3D#8 ∧ cleanBefore p data e.pos ∧
        ((∃ j, e.pos < j ∧ (symAt p data j ∨ classAt p data j .inv)) ∨ 3 ≤ data.count padByte)) ∨
      ((rev e.code).toNat ≤ 63 ∧ ∃ syms v, scan p data = .ok syms ∧ syms.length % 4 = 1 ∧
        syms.getLast? = some (v, e.pos)) ∨
      (e.code ≠ 0x3D#8 ∧ 63 < (rev e.code).toNat ∧ cleanBefore p data e.pos ∧
        classify e.code p = .inv))

/-- 42_decode R144: the first byte of class INV, if no pad comes before it, is reported with its own code and
position; the class INV is every code that is no symbol, no pad and, under TOLERANT, no whitespace. -/
def Obligations.FirstInvalidCharacterIsReported : Prop :=
  (∀ (p : Profile) (data : List Byte) (i : Nat) (c : Byte),
    data[i]? = some c → classify c p = .inv → cleanBefore p data i →
    decodeBuffer p data = .error ⟨c, i⟩) ∧
  (∀ (p : Profile) (c : Byte), classify c p = .inv ↔
    c ≠ 0x3D#8 ∧ (rev c = 0xFF#8 ∨ (p = .strict ∧ c ∈ wsCodes)))

/-- 42_decode R146, R147: a symbol or an INV byte after a pad, or a third pad, is reported as `=` at the first
pad. -/
def Obligations.MisplacedPadIsReportedAtFirstPad : Prop :=
  ∀ (p : Profile) (data : List Byte) (i : Nat),
    classAt p data i .pad → cleanBefore p data i →
    ((∃ j, i < j ∧ (symAt p data j ∨ classAt p data j .inv)) ∨ 3 ≤ data.count padByte) →
    decodeBuffer p data = .error ⟨0x3D#8, i⟩

/-- 42_decode R148: up to two pads at the end change nothing. -/
def Obligations.PadCountIsNotChecked : Prop :=
  ∀ (p : Profile) (data : List Byte) (k : Nat),
    cleanBefore p data data.length → k ≤ 2 →
    decodeBuffer p (data ++ List.replicate k padByte) = decodeBuffer p data

/-- 42_decode R142, R145: under TOLERANT, the four whitespace codes are discarded wherever they stand. -/
def Obligations.WhitespaceIsDiscarded : Prop :=
  ∀ (data out : List Byte),
    decodeBuffer .tolerant data = .ok out ↔
      decodeBuffer .tolerant (data.filter (fun c => c ∉ wsCodes)) = .ok out

/-- 42_decode R149: an input whose scan returns no symbol and raises nothing decodes to nothing; so does, under
TOLERANT, an input of whitespace and at most two pads. -/
def Obligations.InputWithoutSymbolsGivesNothing : Prop :=
  (∀ (p : Profile) (data : List Byte), scan p data = .ok [] → decodeBuffer p data = .ok []) ∧
  ∀ data : List Byte, (∀ c ∈ data, c ∈ padByte :: wsCodes) → data.count padByte ≤ 2 →
    decodeBuffer .tolerant data = .ok []

/-- 42_decode R163: the profiles agree on input without whitespace. -/
def Obligations.ProfilesAgreeWithoutWhitespace : Prop :=
  ∀ data : List Byte, (∀ c ∈ data, c ∉ wsCodes) →
    decodeBuffer .tolerant data = decodeBuffer .strict data
end

