-- ==== Sys2Proof/Laws/Codec.lean ====
section
/-! SUPPORT. The equations of the codec's functions, the induction principles that follow the grouping, and the small
facts about groups and classes. -/

namespace Sys2Proof.Machine

/-! ### Grouping -/

/-- Induction along the groups of 3. -/
theorem groups3_induction {α : Type} {P : List α → Prop} (h0 : P []) (h1 : ∀ a, P [a])
    (h2 : ∀ a b, P [a, b]) (h3 : ∀ a b c rest, P rest → P (a :: b :: c :: rest)) : ∀ l, P l
  | [] => h0
  | [a] => h1 a
  | [a, b] => h2 a b
  | a :: b :: c :: rest => h3 a b c rest (groups3_induction h0 h1 h2 h3 rest)

/-- Induction along the groups of 4. -/
theorem groups4_induction {α : Type} {P : List α → Prop} (h0 : P []) (h1 : ∀ a, P [a])
    (h2 : ∀ a b, P [a, b]) (h3 : ∀ a b c, P [a, b, c])
    (h4 : ∀ a b c d rest, P rest → P (a :: b :: c :: d :: rest)) : ∀ l, P l
  | [] => h0
  | [a] => h1 a
  | [a, b] => h2 a b
  | [a, b, c] => h3 a b c
  | a :: b :: c :: d :: rest => h4 a b c d rest (groups4_induction h0 h1 h2 h3 h4 rest)

@[simp] theorem encodeBuffer_nil (var : Variant) : encodeBuffer var [] = [] := rfl

theorem encodeBuffer_one (var : Variant) (a : Byte) : encodeBuffer var [a] = encodeGroup var [a] := by
  simp [encodeBuffer, groups3]

theorem encodeBuffer_two (var : Variant) (a b : Byte) :
    encodeBuffer var [a, b] = encodeGroup var [a, b] := by
  simp [encodeBuffer, groups3]

theorem encodeBuffer_three (var : Variant) (a b c : Byte) (rest : List Byte) :
    encodeBuffer var (a :: b :: c :: rest) = encodeGroup var [a, b, c] ++ encodeBuffer var rest := rfl

@[simp] theorem unpackSyms_nil : unpackSyms [] = [] := rfl

theorem unpackSyms_one (a : Sym) : unpackSyms [a] = [] := by
  simp [unpackSyms, groups4, decodeGroup]

theorem unpackSyms_two (a b : Sym) : unpackSyms [a, b] = decodeGroup [a, b] := by
  simp [unpackSyms, groups4]

theorem unpackSyms_three (a b c : Sym) : unpackSyms [a, b, c] = decodeGroup [a, b, c] := by
  simp [unpackSyms, groups4]

theorem unpackSyms_four (a b c d : Sym) (rest : List Sym) :
    unpackSyms (a :: b :: c :: d :: rest) = decodeGroup [a, b, c, d] ++ unpackSyms rest := rfl

/-! ### Groups -/

theorem meaningfulSymbols_length (var : Variant) (grp : List Byte) :
    (meaningfulSymbols var grp).length = grp.length + 1 := by simp [meaningfulSymbols]

theorem encodeGroup_length (var : Variant) (grp : List Byte) :
    (encodeGroup var grp).length =
      grp.length + 1 + (match var with | .standard => 3 - grp.length | .urlSafe => 0) := by
  cases var <;> simp [encodeGroup, meaningfulSymbols, groupPadding]

theorem decodeGroup_length (vals : List Sym) : (decodeGroup vals).length = vals.length - 1 := by
  simp [decodeGroup]

theorem encodeGroupWord_one (a : Byte) : encodeGroupWord [a] = packBytes a 0#8 0#8 := rfl

theorem encodeGroupWord_two (a b : Byte) : encodeGroupWord [a, b] = packBytes a b 0#8 := rfl

theorem encodeGroupWord_three (a b c : Byte) : encodeGroupWord [a, b, c] = packBytes a b c := rfl

theorem decodeGroup_two (v0 v1 : Sym) :
    decodeGroup [v0, v1] = [groupByte (packSyms v0 v1 0#6 0#6) 0] := rfl

theorem decodeGroup_three (v0 v1 v2 : Sym) :
    decodeGroup [v0, v1, v2] =
      [groupByte (packSyms v0 v1 v2 0#6) 0, groupByte (packSyms v0 v1 v2 0#6) 1] := rfl

theorem decodeGroup_four (v0 v1 v2 v3 : Sym) :
    decodeGroup [v0, v1, v2, v3] =
      [groupByte (packSyms v0 v1 v2 v3) 0, groupByte (packSyms v0 v1 v2 v3) 1,
        groupByte (packSyms v0 v1 v2 v3) 2] := rfl

/-! ### Classes -/

theorem classify_pad (p : Profile) : classify padByte p = .pad := by simp [classify]

theorem classify_sym_iff (c : Byte) (p : Profile) (v : Sym) :
    classify c p = .sym v ↔ c ≠ padByte ∧ rev c ≤ 0x3F#8 ∧ (rev c).setWidth 6 = v := by
  unfold classify
  split_ifs <;> simp_all

theorem classify_ws_iff (c : Byte) (p : Profile) :
    classify c p = .ws ↔ c ≠ padByte ∧ ¬ rev c ≤ 0x3F#8 ∧ rev c = 0xFE#8 ∧ p = .tolerant := by
  unfold classify
  split_ifs <;> simp_all

/-! ### The scan, one byte at a time -/

section Scan

variable (p : Profile) (i : Nat) (firstPad : Option Nat) (padCount : Nat) (c : Byte) (rest : List Byte)

@[simp] theorem scanFrom_nil : scanFrom p i firstPad padCount [] = .ok [] := rfl

variable {p c}

theorem scanFrom_ws (h : classify c p = .ws) :
    scanFrom p i firstPad padCount (c :: rest) = scanFrom p (i + 1) firstPad padCount rest := by
  simp [scanFrom.eq_def p i firstPad padCount (c :: rest), h]

theorem scanFrom_inv (h : classify c p = .inv) :
    scanFrom p i none padCount (c :: rest) = .error ⟨c, i⟩ := by
  simp [scanFrom.eq_def p i none padCount (c :: rest), h]

theorem scanFrom_inv_after_pad (q : Nat) (h : classify c p = .inv) :
    scanFrom p i (some q) padCount (c :: rest) = .error (misplacedPad q) := by
  simp [scanFrom.eq_def p i (some q) padCount (c :: rest), h]

theorem scanFrom_pad (h : classify c p = .pad) (hc : padCount ≤ 1) :
    scanFrom p i firstPad padCount (c :: rest) =
      scanFrom p (i + 1) (some (firstPad.getD i)) (padCount + 1) rest := by
  have : ¬ padCount + 1 > 2 := by omega
  simp [scanFrom.eq_def p i firstPad padCount (c :: rest), h, this]

theorem scanFrom_third_pad (h : classify c p = .pad) (hc : 2 ≤ padCount) :
    scanFrom p i firstPad padCount (c :: rest) = .error (misplacedPad (firstPad.getD i)) := by
  have : padCount + 1 > 2 := by omega
  simp [scanFrom.eq_def p i firstPad padCount (c :: rest), h, this]

theorem scanFrom_sym_after_pad (q : Nat) {v : Sym} (h : classify c p = .sym v) :
    scanFrom p i (some q) padCount (c :: rest) = .error (misplacedPad q) := by
  simp [scanFrom.eq_def p i (some q) padCount (c :: rest), h]

theorem scanFrom_sym {v : Sym} (h : classify c p = .sym v) :
    scanFrom p i none padCount (c :: rest) =
      (scanFrom p (i + 1) none padCount rest).map (fun syms => (v, i) :: syms) := by
  rw [scanFrom.eq_def p i none padCount (c :: rest)]
  simp only [h]
  cases scanFrom p (i + 1) none padCount rest <;> rfl

end Scan

/-! ### The decoded buffer -/

theorem decodeBuffer_of_scan_error {p : Profile} {data : List Byte} {e : InvalidSymbol}
    (h : scan p data = .error e) : decodeBuffer p data = .error e := by
  simp [decodeBuffer, h]

/-- A clean scan that leaves no symbol alone decodes to its symbols' bytes. -/
theorem decodeBuffer_of_scan {p : Profile} {data : List Byte} {syms : List (Sym × Nat)}
    (h : scan p data = .ok syms) (hs : syms.length % 4 ≠ 1) :
    decodeBuffer p data = .ok (unpackSyms (syms.map Prod.fst)) := by
  rw [decodeBuffer, h]
  simp only
  split
  · exact absurd (by assumption) hs
  · rfl

/-- A clean scan that leaves one symbol alone reports that symbol. -/
theorem decodeBuffer_of_lone {p : Profile} {data : List Byte} {syms : List (Sym × Nat)} {v : Sym} {q : Nat}
    (h : scan p data = .ok syms) (hs : syms.length % 4 = 1) (hl : syms.getLast? = some (v, q)) :
    decodeBuffer p data = .error ⟨data.getD q 0#8, q⟩ := by
  simp [decodeBuffer, h, hs, hl]

/-- The three ways a decode ends. -/
theorem decodeBuffer_cases (p : Profile) (data : List Byte) :
    (∃ e, scan p data = .error e ∧ decodeBuffer p data = .error e) ∨
    (∃ syms, scan p data = .ok syms ∧ syms.length % 4 ≠ 1 ∧
      decodeBuffer p data = .ok (unpackSyms (syms.map Prod.fst))) ∨
    (∃ syms v q, scan p data = .ok syms ∧ syms.length % 4 = 1 ∧ syms.getLast? = some (v, q) ∧
      decodeBuffer p data = .error ⟨data.getD q 0#8, q⟩) := by
  cases h : scan p data with
  | error e => exact .inl ⟨e, rfl, decodeBuffer_of_scan_error h⟩
  | ok syms =>
    by_cases hs : syms.length % 4 = 1
    · cases hl : syms.getLast? with
      | none =>
        rw [List.getLast?_eq_none_iff] at hl
        simp [hl] at hs
      | some vq => exact .inr (.inr ⟨syms, vq.1, vq.2, rfl, hs, hl, decodeBuffer_of_lone h hs hl⟩)
    · exact .inr (.inl ⟨syms, rfl, hs, decodeBuffer_of_scan h hs⟩)

end Sys2Proof.Machine
end

