-- ==== Sys2Proof/Laws/Memory.lean ====
section
/-! SUPPORT. The laws of the buffers: read after write, and that every operation keeps the canonical form. -/

namespace Sys2Proof.Machine

@[simp] theorem Memory.read_nil (a : Nat) : Memory.read [] a = none := rfl

theorem Memory.read_cons (k : Nat) (v : Byte) (rest : Memory) (a : Nat) :
    Memory.read ((k, v) :: rest) a = if k = a then some v else Memory.read rest a := rfl

theorem Memory.write_cons (k : Nat) (u : Byte) (rest : Memory) (a : Nat) (v : Byte) :
    Memory.write ((k, u) :: rest) a v =
      if a < k then (a, v) :: (k, u) :: rest
      else if a = k then (a, v) :: rest
      else (k, u) :: Memory.write rest a v := rfl

/-- What reading after a write gives, at every index. -/
theorem Memory.read_write (m : Memory) (a b : Nat) (v : Byte) :
    (m.write a v).read b = if a = b then some v else m.read b := by
  induction m with
  | nil => rfl
  | cons cell rest ih =>
    obtain ⟨k, u⟩ := cell
    rw [Memory.write_cons]
    split
    · simp only [Memory.read_cons]
    · split
      · next h1 h2 => subst h2; simp only [Memory.read_cons]; split <;> rfl
      · next h1 h2 =>
        simp only [Memory.read_cons, ih]
        split
        · next h3 => subst h3; simp [h2]
        · rfl

@[simp] theorem Memory.read_write_same (m : Memory) (a : Nat) (v : Byte) :
    (m.write a v).read a = some v := by simp [Memory.read_write]

theorem Memory.read_write_other (m : Memory) {a b : Nat} (h : a ≠ b) (v : Byte) :
    (m.write a v).read b = m.read b := by simp [Memory.read_write, h]

/-- What reading after the write of consecutive bytes gives, at every index. -/
theorem Memory.read_writeBytes (m : Memory) (start b : Nat) (bs : List Byte) :
    (m.writeBytes start bs).read b =
      if start ≤ b ∧ b < start + bs.length then bs[b - start]? else m.read b := by
  induction bs generalizing m start with
  | nil => simp [Memory.writeBytes]
  | cons x xs ih =>
    rw [Memory.writeBytes, ih, Memory.read_write]
    by_cases h : start + 1 ≤ b
    · obtain ⟨d, rfl⟩ := Nat.exists_eq_add_of_le h
      have e1 : start + 1 + d - (start + 1) = d := by omega
      have e2 : start + 1 + d - start = d + 1 := by omega
      have e3 : start ≠ start + 1 + d := by omega
      have e4 : start ≤ start + 1 + d := by omega
      have e5 : (start + 1 + d < start + 1 + xs.length) ↔ (start + 1 + d < start + (x :: xs).length) := by
        simp only [List.length_cons]; omega
      simp only [e1, e2, e3, e4, e5, h, true_and, if_false, List.getElem?_cons_succ]
    · by_cases h' : start = b
      · subst h'; simp
      · have : ¬ start ≤ b := by omega
        simp [h, h', this]

/-- In the canonical form every listed index is above the first. -/
theorem Memory.wf_cons_iff (k : Nat) (v : Byte) (rest : Memory) :
    Memory.wf ((k, v) :: rest) = true ↔ (∀ c ∈ rest, k < c.1) ∧ Memory.wf rest = true := by
  induction rest generalizing k v with
  | nil => simp [Memory.wf]
  | cons cell rest ih =>
    obtain ⟨j, u⟩ := cell
    simp only [Memory.wf, Bool.and_eq_true, decide_eq_true_eq, List.mem_cons, forall_eq_or_imp]
    constructor
    · rintro ⟨hkj, hwf⟩
      refine ⟨⟨hkj, fun c hc => ?_⟩, hwf⟩
      exact hkj.trans (((ih j u).1 hwf).1 c hc)
    · rintro ⟨⟨hkj, _⟩, hwf⟩
      exact ⟨hkj, hwf⟩

theorem Memory.mem_write {m : Memory} {a : Nat} {v : Byte} {c : Host.Cell} (h : c ∈ m.write a v) :
    c = (a, v) ∨ c ∈ m := by
  induction m with
  | nil => simpa [Memory.write] using h
  | cons cell rest ih =>
    obtain ⟨k, u⟩ := cell
    rw [Memory.write_cons] at h
    split at h
    · simpa using h
    · split at h
      · simp only [List.mem_cons] at h ⊢
        tauto
      · simp only [List.mem_cons] at h ⊢
        rcases h with h | h
        · tauto
        · rcases ih h with h | h <;> tauto

/-- A write keeps the canonical form. -/
theorem Memory.write_wf {m : Memory} (h : m.wf = true) (a : Nat) (v : Byte) : (m.write a v).wf = true := by
  induction m with
  | nil => rfl
  | cons cell rest ih =>
    obtain ⟨k, u⟩ := cell
    obtain ⟨hk, hrest⟩ := (Memory.wf_cons_iff k u rest).1 h
    rw [Memory.write_cons]
    split
    · next hlt =>
      refine (Memory.wf_cons_iff _ _ _).2 ⟨fun c hc => ?_, h⟩
      rcases List.mem_cons.1 hc with rfl | hc
      · exact hlt
      · exact hlt.trans (hk c hc)
    · split
      · next heq => subst heq; exact (Memory.wf_cons_iff _ _ _).2 ⟨hk, hrest⟩
      · next h1 h2 =>
        refine (Memory.wf_cons_iff _ _ _).2 ⟨fun c hc => ?_, ih hrest⟩
        rcases Memory.mem_write hc with rfl | hc
        · show k < a; omega
        · exact hk c hc

/-- The write of consecutive bytes keeps the canonical form. -/
theorem Memory.writeBytes_wf {m : Memory} (h : m.wf = true) (start : Nat) (bs : List Byte) :
    (m.writeBytes start bs).wf = true := by
  induction bs generalizing m start with
  | nil => exact h
  | cons x xs ih => exact ih (Memory.write_wf h start x) (start + 1)

/-- Reading `n` bytes succeeds exactly where each holds a value, and gives those values. -/
theorem Memory.readBytes_ok_iff (m : Memory) (start n : Nat) (bs : List Byte) :
    m.readBytes start n = .ok bs ↔ bs.length = n ∧ ∀ k, k < n → m.read (start + k) = bs[k]? := by
  induction n generalizing start bs with
  | zero => cases bs <;> simp [Memory.readBytes]
  | succ n ih =>
    unfold Memory.readBytes
    cases hr : m.read start with
    | none =>
      simp only [reduceCtorEq, false_iff, not_and, not_forall]
      intro hlen
      refine ⟨0, Nat.succ_pos n, ?_⟩
      cases bs with
      | nil => simp at hlen
      | cons b bs => simp [hr]
    | some b =>
      cases hrest : m.readBytes (start + 1) n with
      | error a =>
        simp only [reduceCtorEq, false_iff, not_and, not_forall]
        intro hlen
        cases bs with
        | nil => simp at hlen
        | cons c cs =>
          by_contra hall
          push Not at hall
          have : m.readBytes (start + 1) n = .ok cs := by
            refine (ih (start + 1) cs).2 ⟨by simpa using hlen, fun k hk => ?_⟩
            have := hall (k + 1) (by omega)
            rw [show start + (k + 1) = start + 1 + k by omega] at this
            simpa using this
          rw [hrest] at this
          cases this
      | ok rest =>
        have hspec := (ih (start + 1) rest).1 hrest
        constructor
        · rintro h
          injection h with h
          subst h
          refine ⟨by simp [hspec.1], fun k hk => ?_⟩
          cases k with
          | zero => simp [hr]
          | succ k =>
            rw [show start + (k + 1) = start + 1 + k by omega, hspec.2 k (by omega)]
            simp
        · rintro ⟨hlen, hall⟩
          cases bs with
          | nil => simp at hlen
          | cons c cs =>
            have h0 := hall 0 (Nat.succ_pos n)
            simp only [Nat.add_zero, hr, List.getElem?_cons_zero, Option.some.injEq] at h0
            subst h0
            have : m.readBytes (start + 1) n = .ok cs := by
              refine (ih (start + 1) cs).2 ⟨by simpa using hlen, fun k hk => ?_⟩
              have := hall (k + 1) (by omega)
              rw [show start + (k + 1) = start + 1 + k by omega] at this
              simpa using this
            rw [hrest] at this
            injection this with this
            rw [this]

/-- Reading `n` bytes reports exactly the lowest index that holds no value. -/
theorem Memory.readBytes_error_iff (m : Memory) (start n a : Nat) :
    m.readBytes start n = .error a ↔
      start ≤ a ∧ a < start + n ∧ m.read a = none ∧ ∀ k, start ≤ k → k < a → m.read k ≠ none := by
  induction n generalizing start with
  | zero => simp [Memory.readBytes]; intros; omega
  | succ n ih =>
    unfold Memory.readBytes
    cases hr : m.read start with
    | none =>
      simp only [Except.error.injEq]
      constructor
      · rintro rfl
        exact ⟨le_refl _, by omega, hr, fun k h1 h2 => by omega⟩
      · rintro ⟨h1, _, _, h4⟩
        by_contra hne
        exact h4 start (le_refl _) (by omega) hr
    | some b =>
      have key : m.readBytes (start + 1) n = .error a ↔
          start ≤ a ∧ a < start + (n + 1) ∧ m.read a = none ∧
            ∀ k, start ≤ k → k < a → m.read k ≠ none := by
        rw [ih]
        constructor
        · rintro ⟨h1, h2, h3, h4⟩
          refine ⟨by omega, by omega, h3, fun k hk1 hk2 => ?_⟩
          rcases Nat.eq_or_lt_of_le hk1 with rfl | hlt
          · simp [hr]
          · exact h4 k hlt hk2
        · rintro ⟨h1, h2, h3, h4⟩
          have : start ≠ a := by rintro rfl; simp [hr] at h3
          exact ⟨by omega, by omega, h3, fun k hk1 hk2 => h4 k (by omega) hk2⟩
      rw [← key]
      cases m.readBytes (start + 1) n <;> simp

end Sys2Proof.Machine
end

