-- ==== Sys2Proof/Laws/PerInstr.lean ====
section
/-! SUPPORT. The per-instruction family: every command's fields are legal, and its word holds them. -/

namespace Sys2Proof.Laws.WordFields

/-- The fields of the command are well formed (30_encoding R71 to R73), and its word splits into them (R70). -/
def Statement (i : Instr) : Prop := i.wf = true ∧ splitWord (encode i) = i.fields

theorem encStd : Statement .encStd := ⟨rfl, by decide⟩

theorem encUrl : Statement .encUrl := ⟨rfl, by decide⟩

theorem dec : Statement .dec := ⟨rfl, by decide⟩

end Sys2Proof.Laws.WordFields
end

