-- ==== Sys2Proof/Laws/State.lean ====
section
/-! SUPPORT. One lemma per field and named operation on State, so that no proof unfolds a record update. -/

namespace Sys2Proof.Machine

/-! `clearResults` -/

@[simp] theorem clearResults_status (s : State) : (clearResults s).status = s.status := rfl
@[simp] theorem clearResults_inLen (s : State) : (clearResults s).inLen = s.inLen := rfl
@[simp] theorem clearResults_outLen (s : State) : (clearResults s).outLen = 0#32 := rfl
@[simp] theorem clearResults_errCode (s : State) : (clearResults s).errCode = 0#8 := rfl
@[simp] theorem clearResults_errPos (s : State) : (clearResults s).errPos = 0#32 := rfl
@[simp] theorem clearResults_profile (s : State) : (clearResults s).profile = s.profile := rfl
@[simp] theorem clearResults_maxIn (s : State) : (clearResults s).maxIn = s.maxIn := rfl
@[simp] theorem clearResults_inBuf (s : State) : (clearResults s).inBuf = s.inBuf := rfl
@[simp] theorem clearResults_outBuf (s : State) : (clearResults s).outBuf = [] := rfl
@[simp] theorem clearResults_latchOp (s : State) : (clearResults s).latchOp = s.latchOp := rfl
@[simp] theorem clearResults_latchVar (s : State) : (clearResults s).latchVar = s.latchVar := rfl
@[simp] theorem clearResults_latchLen (s : State) : (clearResults s).latchLen = s.latchLen := rfl
@[simp] theorem clearResults_pending (s : State) : (clearResults s).pending = s.pending := rfl
@[simp] theorem clearResults_returned (s : State) : (clearResults s).returned = s.returned := rfl
@[simp] theorem clearResults_endUnseen (s : State) : (clearResults s).endUnseen = s.endUnseen := rfl
@[simp] theorem clearResults_schedule (s : State) : (clearResults s).schedule = s.schedule := rfl
@[simp] theorem clearResults_coreWait (s : State) : (clearResults s).coreWait = s.coreWait := rfl
@[simp] theorem clearResults_issued (s : State) : (clearResults s).issued = s.issued := rfl

/-! `completeOk` -/

@[simp] theorem completeOk_status (out : List Byte) (s : State) : (completeOk out s).status = .ok := rfl
@[simp] theorem completeOk_inLen (out : List Byte) (s : State) : (completeOk out s).inLen = s.inLen := rfl
@[simp] theorem completeOk_outLen (out : List Byte) (s : State) : (completeOk out s).outLen = BitVec.ofNat 32 out.length := rfl
@[simp] theorem completeOk_errCode (out : List Byte) (s : State) : (completeOk out s).errCode = 0#8 := rfl
@[simp] theorem completeOk_errPos (out : List Byte) (s : State) : (completeOk out s).errPos = 0#32 := rfl
@[simp] theorem completeOk_profile (out : List Byte) (s : State) : (completeOk out s).profile = s.profile := rfl
@[simp] theorem completeOk_maxIn (out : List Byte) (s : State) : (completeOk out s).maxIn = s.maxIn := rfl
@[simp] theorem completeOk_inBuf (out : List Byte) (s : State) : (completeOk out s).inBuf = s.inBuf := rfl
@[simp] theorem completeOk_outBuf (out : List Byte) (s : State) : (completeOk out s).outBuf = s.outBuf.writeBytes 0 out := rfl
@[simp] theorem completeOk_latchOp (out : List Byte) (s : State) : (completeOk out s).latchOp = s.latchOp := rfl
@[simp] theorem completeOk_latchVar (out : List Byte) (s : State) : (completeOk out s).latchVar = s.latchVar := rfl
@[simp] theorem completeOk_latchLen (out : List Byte) (s : State) : (completeOk out s).latchLen = s.latchLen := rfl
@[simp] theorem completeOk_pending (out : List Byte) (s : State) : (completeOk out s).pending = s.pending := rfl
@[simp] theorem completeOk_returned (out : List Byte) (s : State) : (completeOk out s).returned = s.returned := rfl
@[simp] theorem completeOk_endUnseen (out : List Byte) (s : State) : (completeOk out s).endUnseen = s.endUnseen := rfl
@[simp] theorem completeOk_schedule (out : List Byte) (s : State) : (completeOk out s).schedule = s.schedule := rfl
@[simp] theorem completeOk_coreWait (out : List Byte) (s : State) : (completeOk out s).coreWait = s.coreWait := rfl
@[simp] theorem completeOk_issued (out : List Byte) (s : State) : (completeOk out s).issued = s.issued := rfl

/-! `raiseInvalidSymbol` -/

@[simp] theorem raiseInvalidSymbol_status (e : InvalidSymbol) (s : State) : (raiseInvalidSymbol e s).status = .error := rfl
@[simp] theorem raiseInvalidSymbol_inLen (e : InvalidSymbol) (s : State) : (raiseInvalidSymbol e s).inLen = s.inLen := rfl
@[simp] theorem raiseInvalidSymbol_outLen (e : InvalidSymbol) (s : State) : (raiseInvalidSymbol e s).outLen = 0#32 := rfl
@[simp] theorem raiseInvalidSymbol_errCode (e : InvalidSymbol) (s : State) : (raiseInvalidSymbol e s).errCode = e.code := rfl
@[simp] theorem raiseInvalidSymbol_errPos (e : InvalidSymbol) (s : State) : (raiseInvalidSymbol e s).errPos = BitVec.ofNat 32 e.pos := rfl
@[simp] theorem raiseInvalidSymbol_profile (e : InvalidSymbol) (s : State) : (raiseInvalidSymbol e s).profile = s.profile := rfl
@[simp] theorem raiseInvalidSymbol_maxIn (e : InvalidSymbol) (s : State) : (raiseInvalidSymbol e s).maxIn = s.maxIn := rfl
@[simp] theorem raiseInvalidSymbol_inBuf (e : InvalidSymbol) (s : State) : (raiseInvalidSymbol e s).inBuf = s.inBuf := rfl
@[simp] theorem raiseInvalidSymbol_outBuf (e : InvalidSymbol) (s : State) : (raiseInvalidSymbol e s).outBuf = [] := rfl
@[simp] theorem raiseInvalidSymbol_latchOp (e : InvalidSymbol) (s : State) : (raiseInvalidSymbol e s).latchOp = s.latchOp := rfl
@[simp] theorem raiseInvalidSymbol_latchVar (e : InvalidSymbol) (s : State) : (raiseInvalidSymbol e s).latchVar = s.latchVar := rfl
@[simp] theorem raiseInvalidSymbol_latchLen (e : InvalidSymbol) (s : State) : (raiseInvalidSymbol e s).latchLen = s.latchLen := rfl
@[simp] theorem raiseInvalidSymbol_pending (e : InvalidSymbol) (s : State) : (raiseInvalidSymbol e s).pending = s.pending := rfl
@[simp] theorem raiseInvalidSymbol_returned (e : InvalidSymbol) (s : State) : (raiseInvalidSymbol e s).returned = s.returned := rfl
@[simp] theorem raiseInvalidSymbol_endUnseen (e : InvalidSymbol) (s : State) : (raiseInvalidSymbol e s).endUnseen = s.endUnseen := rfl
@[simp] theorem raiseInvalidSymbol_schedule (e : InvalidSymbol) (s : State) : (raiseInvalidSymbol e s).schedule = s.schedule := rfl
@[simp] theorem raiseInvalidSymbol_coreWait (e : InvalidSymbol) (s : State) : (raiseInvalidSymbol e s).coreWait = s.coreWait := rfl
@[simp] theorem raiseInvalidSymbol_issued (e : InvalidSymbol) (s : State) : (raiseInvalidSymbol e s).issued = s.issued := rfl

/-! `raiseCommandRejected` -/

@[simp] theorem raiseCommandRejected_status (r : Byte) (s : State) : (raiseCommandRejected r s).status = .rejected := rfl
@[simp] theorem raiseCommandRejected_inLen (r : Byte) (s : State) : (raiseCommandRejected r s).inLen = s.inLen := rfl
@[simp] theorem raiseCommandRejected_outLen (r : Byte) (s : State) : (raiseCommandRejected r s).outLen = 0#32 := rfl
@[simp] theorem raiseCommandRejected_errCode (r : Byte) (s : State) : (raiseCommandRejected r s).errCode = r := rfl
@[simp] theorem raiseCommandRejected_errPos (r : Byte) (s : State) : (raiseCommandRejected r s).errPos = 0#32 := rfl
@[simp] theorem raiseCommandRejected_profile (r : Byte) (s : State) : (raiseCommandRejected r s).profile = s.profile := rfl
@[simp] theorem raiseCommandRejected_maxIn (r : Byte) (s : State) : (raiseCommandRejected r s).maxIn = s.maxIn := rfl
@[simp] theorem raiseCommandRejected_inBuf (r : Byte) (s : State) : (raiseCommandRejected r s).inBuf = s.inBuf := rfl
@[simp] theorem raiseCommandRejected_outBuf (r : Byte) (s : State) : (raiseCommandRejected r s).outBuf = s.outBuf := rfl
@[simp] theorem raiseCommandRejected_latchOp (r : Byte) (s : State) : (raiseCommandRejected r s).latchOp = s.latchOp := rfl
@[simp] theorem raiseCommandRejected_latchVar (r : Byte) (s : State) : (raiseCommandRejected r s).latchVar = s.latchVar := rfl
@[simp] theorem raiseCommandRejected_latchLen (r : Byte) (s : State) : (raiseCommandRejected r s).latchLen = s.latchLen := rfl
@[simp] theorem raiseCommandRejected_pending (r : Byte) (s : State) : (raiseCommandRejected r s).pending = s.pending := rfl
@[simp] theorem raiseCommandRejected_returned (r : Byte) (s : State) : (raiseCommandRejected r s).returned = s.returned := rfl
@[simp] theorem raiseCommandRejected_endUnseen (r : Byte) (s : State) : (raiseCommandRejected r s).endUnseen = s.endUnseen := rfl
@[simp] theorem raiseCommandRejected_schedule (r : Byte) (s : State) : (raiseCommandRejected r s).schedule = s.schedule := rfl
@[simp] theorem raiseCommandRejected_coreWait (r : Byte) (s : State) : (raiseCommandRejected r s).coreWait = s.coreWait := rfl
@[simp] theorem raiseCommandRejected_issued (r : Byte) (s : State) : (raiseCommandRejected r s).issued = s.issued := rfl

/-! `acceptCommand` -/

@[simp] theorem acceptCommand_status (i : Instr) (s : State) : (acceptCommand i s).status = .busy := rfl
@[simp] theorem acceptCommand_inLen (i : Instr) (s : State) : (acceptCommand i s).inLen = s.inLen := rfl
@[simp] theorem acceptCommand_outLen (i : Instr) (s : State) : (acceptCommand i s).outLen = s.outLen := rfl
@[simp] theorem acceptCommand_errCode (i : Instr) (s : State) : (acceptCommand i s).errCode = s.errCode := rfl
@[simp] theorem acceptCommand_errPos (i : Instr) (s : State) : (acceptCommand i s).errPos = s.errPos := rfl
@[simp] theorem acceptCommand_profile (i : Instr) (s : State) : (acceptCommand i s).profile = s.profile := rfl
@[simp] theorem acceptCommand_maxIn (i : Instr) (s : State) : (acceptCommand i s).maxIn = s.maxIn := rfl
@[simp] theorem acceptCommand_inBuf (i : Instr) (s : State) : (acceptCommand i s).inBuf = s.inBuf := rfl
@[simp] theorem acceptCommand_outBuf (i : Instr) (s : State) : (acceptCommand i s).outBuf = s.outBuf := rfl
@[simp] theorem acceptCommand_latchOp (i : Instr) (s : State) : (acceptCommand i s).latchOp = commandOp i := rfl
@[simp] theorem acceptCommand_latchVar (i : Instr) (s : State) : (acceptCommand i s).latchVar = commandVar i s.latchVar := rfl
@[simp] theorem acceptCommand_latchLen (i : Instr) (s : State) : (acceptCommand i s).latchLen = s.inLen := rfl
@[simp] theorem acceptCommand_pending (i : Instr) (s : State) : (acceptCommand i s).pending = s.pending := rfl
@[simp] theorem acceptCommand_returned (i : Instr) (s : State) : (acceptCommand i s).returned = s.returned := rfl
@[simp] theorem acceptCommand_endUnseen (i : Instr) (s : State) : (acceptCommand i s).endUnseen = true := rfl
@[simp] theorem acceptCommand_schedule (i : Instr) (s : State) : (acceptCommand i s).schedule = s.schedule.tail := rfl
@[simp] theorem acceptCommand_coreWait (i : Instr) (s : State) : (acceptCommand i s).coreWait = drawWait s := rfl
@[simp] theorem acceptCommand_issued (i : Instr) (s : State) : (acceptCommand i s).issued = (if s.schedule.isEmpty then s.issued + 1 else s.issued) := rfl

/-! `resetBlock` -/

@[simp] theorem resetBlock_status (s : State) : (resetBlock s).status = .idle := rfl
@[simp] theorem resetBlock_inLen (s : State) : (resetBlock s).inLen = 0#32 := rfl
@[simp] theorem resetBlock_outLen (s : State) : (resetBlock s).outLen = 0#32 := rfl
@[simp] theorem resetBlock_errCode (s : State) : (resetBlock s).errCode = 0#8 := rfl
@[simp] theorem resetBlock_errPos (s : State) : (resetBlock s).errPos = 0#32 := rfl
@[simp] theorem resetBlock_profile (s : State) : (resetBlock s).profile = s.profile := rfl
@[simp] theorem resetBlock_maxIn (s : State) : (resetBlock s).maxIn = s.maxIn := rfl
@[simp] theorem resetBlock_inBuf (s : State) : (resetBlock s).inBuf = [] := rfl
@[simp] theorem resetBlock_outBuf (s : State) : (resetBlock s).outBuf = [] := rfl
@[simp] theorem resetBlock_latchOp (s : State) : (resetBlock s).latchOp = .enc := rfl
@[simp] theorem resetBlock_latchVar (s : State) : (resetBlock s).latchVar = .standard := rfl
@[simp] theorem resetBlock_latchLen (s : State) : (resetBlock s).latchLen = 0#32 := rfl
@[simp] theorem resetBlock_pending (s : State) : (resetBlock s).pending = s.pending := rfl
@[simp] theorem resetBlock_returned (s : State) : (resetBlock s).returned = s.returned := rfl
@[simp] theorem resetBlock_endUnseen (s : State) : (resetBlock s).endUnseen = false := rfl
@[simp] theorem resetBlock_schedule (s : State) : (resetBlock s).schedule = s.schedule := rfl
@[simp] theorem resetBlock_coreWait (s : State) : (resetBlock s).coreWait = 0 := rfl
@[simp] theorem resetBlock_issued (s : State) : (resetBlock s).issued = s.issued := rfl

/-! `returnWord` -/

@[simp] theorem returnWord_status (w : Word) (s : State) : (returnWord w s).status = s.status := rfl
@[simp] theorem returnWord_inLen (w : Word) (s : State) : (returnWord w s).inLen = s.inLen := rfl
@[simp] theorem returnWord_outLen (w : Word) (s : State) : (returnWord w s).outLen = s.outLen := rfl
@[simp] theorem returnWord_errCode (w : Word) (s : State) : (returnWord w s).errCode = s.errCode := rfl
@[simp] theorem returnWord_errPos (w : Word) (s : State) : (returnWord w s).errPos = s.errPos := rfl
@[simp] theorem returnWord_profile (w : Word) (s : State) : (returnWord w s).profile = s.profile := rfl
@[simp] theorem returnWord_maxIn (w : Word) (s : State) : (returnWord w s).maxIn = s.maxIn := rfl
@[simp] theorem returnWord_inBuf (w : Word) (s : State) : (returnWord w s).inBuf = s.inBuf := rfl
@[simp] theorem returnWord_outBuf (w : Word) (s : State) : (returnWord w s).outBuf = s.outBuf := rfl
@[simp] theorem returnWord_latchOp (w : Word) (s : State) : (returnWord w s).latchOp = s.latchOp := rfl
@[simp] theorem returnWord_latchVar (w : Word) (s : State) : (returnWord w s).latchVar = s.latchVar := rfl
@[simp] theorem returnWord_latchLen (w : Word) (s : State) : (returnWord w s).latchLen = s.latchLen := rfl
@[simp] theorem returnWord_pending (w : Word) (s : State) : (returnWord w s).pending = s.pending := rfl
@[simp] theorem returnWord_returned (w : Word) (s : State) : (returnWord w s).returned = w :: s.returned := rfl
@[simp] theorem returnWord_endUnseen (w : Word) (s : State) : (returnWord w s).endUnseen = s.endUnseen := rfl
@[simp] theorem returnWord_schedule (w : Word) (s : State) : (returnWord w s).schedule = s.schedule := rfl
@[simp] theorem returnWord_coreWait (w : Word) (s : State) : (returnWord w s).coreWait = s.coreWait := rfl
@[simp] theorem returnWord_issued (w : Word) (s : State) : (returnWord w s).issued = s.issued := rfl

end Sys2Proof.Machine
end

