-- ==== Sys2Proof/Laws/Step.lean ====
section
/-! SUPPORT. What a core step, a line and a step can do, each said once; proofs cite these instead of unfolding. -/

namespace Sys2Proof.Machine

/-! ### The core step -/

theorem coreInput_ok_iff (s : State) (data : List Byte) :
    coreInput s = .ok data ↔ inputIs s s.latchLen.toNat data := by
  simp [coreInput, inputIs, Memory.readBytes_ok_iff]

/-- A core step that answers a next state was enabled and read its whole input. -/
theorem coreStep_next {i : Instr} {f : List Byte → State → State} {s t : State}
    (h : coreStep i f s = .next t) :
    s.status = .busy ∧ latchedInstr s = i ∧ ∃ data, inputIs s s.latchLen.toNat data ∧ t = f data s := by
  unfold coreStep at h
  split at h
  · next hen =>
    split at h
    · cases h
    · next data hin =>
      cases h
      exact ⟨hen.1, hen.2, data, (coreInput_ok_iff s data).1 hin, rfl⟩
  · cases h

/-- An enabled core step over written input completes. -/
theorem coreStep_of_input {i : Instr} {f : List Byte → State → State} {s : State} {data : List Byte}
    (hb : s.status = .busy) (hl : latchedInstr s = i) (hin : inputIs s s.latchLen.toNat data) :
    coreStep i f s = .next (f data s) := by
  simp [coreStep, hb, hl, (coreInput_ok_iff s data).2 hin]

/-- An enabled core step over unwritten input faults at the lowest unwritten index. -/
theorem coreStep_unwritten {i : Instr} {f : List Byte → State → State} {s : State} {k : Nat}
    (hb : s.status = .busy) (hl : latchedInstr s = i) (hk : k < s.latchLen.toNat)
    (hnone : s.inBuf.read k = none) (hlow : ∀ j, j < k → s.inBuf.read j ≠ none) :
    coreStep i f s = .fault (.unwrittenInput k) := by
  have : coreInput s = .error k :=
    (Memory.readBytes_error_iff _ _ _ _).2 ⟨k.zero_le, by omega, hnone, fun j _ hj => hlow j hj⟩
  simp [coreStep, hb, hl, this]

theorem coreStep_not_enabled {i : Instr} {f : List Byte → State → State} {s : State}
    (h : ¬ (s.status = .busy ∧ latchedInstr s = i)) :
    coreStep i f s = .refused .coreStepNotEnabled := by
  simp [coreStep, h]

/-- Written input is the input of some list of bytes. -/
theorem exists_inputIs {s : State} {n : Nat} (h : inputWritten s n) : ∃ data, inputIs s n data := by
  induction n with
  | zero => exact ⟨[], rfl, fun k hk => absurd hk (Nat.not_lt_zero k)⟩
  | succ n ih =>
    obtain ⟨data, hlen, hall⟩ := ih fun k hk => h k (Nat.lt_succ_of_lt hk)
    obtain ⟨b, hb⟩ := Option.ne_none_iff_exists'.1 (h n (Nat.lt_succ_self n))
    refine ⟨data ++ [b], by simp [hlen], fun k hk => ?_⟩
    rcases Nat.lt_succ_iff_lt_or_eq.1 hk with hlt | rfl
    · rw [hall k hlt, List.getElem?_append_left (by omega)]
    · rw [hb, List.getElem?_append_right (by omega), hlen]
      simp

/-- How each command's core step ends. -/
def finish (i : Instr) (data : List Byte) (s : State) : State :=
  match i with
  | .encStd => completeOk (encodeBuffer .standard data) s
  | .encUrl => completeOk (encodeBuffer .urlSafe data) s
  | .dec => finishDec data s

/-- Every command is the core step with its own end. -/
theorem exec_eq (i : Instr) (s : State) : exec i s = coreStep i (finish i) s := by
  cases i <;> rfl

/-- A core step ends with an output or with InvalidSymbol, the latter for `DEC` alone. -/
theorem finish_cases (i : Instr) (data : List Byte) (s : State) :
    (∃ out, finish i data s = completeOk out s ∧
      ((∃ var, out = encodeBuffer var data) ∨ decodeBuffer s.profile data = .ok out)) ∨
    (i = .dec ∧ ∃ e, decodeBuffer s.profile data = .error e ∧ finish i data s = raiseInvalidSymbol e s) := by
  cases i with
  | encStd => exact .inl ⟨_, rfl, .inl ⟨_, rfl⟩⟩
  | encUrl => exact .inl ⟨_, rfl, .inl ⟨_, rfl⟩⟩
  | dec =>
    cases h : decodeBuffer s.profile data with
    | ok out => exact .inl ⟨out, by simp [finish, finishDec, h], .inr rfl⟩
    | error e => exact .inr ⟨rfl, e, rfl, by simp [finish, finishDec, h]⟩

/-! ### Who moves -/

theorem coreMoves_iff (s : State) :
    coreMoves s = true ↔ s.status = .busy ∧ (s.coreWait = 0 ∨ s.pending = []) := by
  simp [coreMoves]

theorem coreMoves_false_of_not_busy {s : State} (h : s.status ≠ .busy) : coreMoves s = false := by
  simp [coreMoves, h]

theorem step_core {s : State} (h : coreMoves s = true) : step s = exec (latchedInstr s) s := by
  simp [step, h]

/-- The state a line meets: it is taken off the pending lines, and one line fewer comes before the core step. -/
theorem step_line {s : State} {l : Line} {rest : List Line} (h : coreMoves s = false)
    (hp : s.pending = l :: rest) :
    step s = performLine l { s with pending := rest, coreWait := s.coreWait - 1 } := by
  simp [step, h, hostStep, hp]

/-- What a step that answers a next state was: the core's, over its whole input, or a line's. -/
theorem step_next {s t : State} (h : step s = .next t) :
    (coreMoves s = true ∧ s.status = .busy ∧
      ∃ data, inputIs s s.latchLen.toNat data ∧ t = finish (latchedInstr s) data s) ∨
    (coreMoves s = false ∧ ∃ l rest, s.pending = l :: rest ∧
      performLine l { s with pending := rest, coreWait := s.coreWait - 1 } = .next t) := by
  cases hm : coreMoves s with
  | true =>
    rw [step_core hm, exec_eq] at h
    obtain ⟨hb, -, hdata⟩ := coreStep_next h
    exact .inl ⟨rfl, hb, hdata⟩
  | false =>
    cases hp : s.pending with
    | nil => simp [step, hm, hostStep, hp] at h
    | cons l rest =>
      rw [step_line hm hp] at h
      exact .inr ⟨rfl, l, rest, rfl, h⟩

/-! ### Lines -/

/-- A CMD write: ignored, rejected, or accepted. -/
theorem writeCmd_cases (w : Word) (s : State) :
    (s.status = .busy ∧ writeCmd w s = s) ∨
    (s.status ≠ .busy ∧ (∃ e, decodeWord w = .error e) ∧
      writeCmd w s = raiseCommandRejected reasonReserved (clearResults s)) ∨
    (s.status ≠ .busy ∧ (∃ i, decodeWord w = .ok i) ∧ s.maxIn < s.inLen ∧
      writeCmd w s = raiseCommandRejected reasonLength (clearResults s)) ∨
    (s.status ≠ .busy ∧ s.inLen ≤ s.maxIn ∧
      ∃ i, decodeWord w = .ok i ∧ writeCmd w s = acceptCommand i (clearResults s)) := by
  unfold writeCmd
  by_cases hb : s.status = .busy
  · simp [hb]
  · cases hd : decodeWord w with
    | error e => simp [hb]
    | ok i =>
      by_cases hl : s.inLen > s.maxIn
      · simp [hb, hl, BitVec.not_le.2 hl]
      · simp [hb, hl, BitVec.not_lt.1 hl]

/-- The register at each legal offset is one of the eight. -/
theorem regAt_of_legal {o : Nat} (h4 : o % 4 = 0) (hlt : o < 0x20) : ∃ r, regAt o = some r := by
  have : o = 0 ∨ o = 4 ∨ o = 8 ∨ o = 12 ∨ o = 16 ∨ o = 20 ∨ o = 24 ∨ o = 28 := by omega
  rcases this with rfl | rfl | rfl | rfl | rfl | rfl | rfl | rfl <;> exact ⟨_, rfl⟩

/-! The legal shapes, space by space (20_memory R51 to R53). -/

theorem Txn.wf_reg_iff (n offset width : Nat) (acc : Access) :
    Txn.wf n ⟨.reg, offset, width, acc⟩ = true ↔ (width = 32 ∧ offset % 4 = 0) ∧ offset < 0x20 := by
  simp [Txn.wf]

theorem Txn.wf_inp_iff (n offset width : Nat) (acc : Access) :
    Txn.wf n ⟨.inp, offset, width, acc⟩ = true ↔ width = 8 ∧ offset < n := by
  simp [Txn.wf]

theorem Txn.wf_out_iff (n offset width : Nat) (acc : Access) :
    Txn.wf n ⟨.out, offset, width, acc⟩ = true ↔ width = 8 ∧ offset < maxOutLen n := by
  simp [Txn.wf]

/-- A transaction's shape has a meaning exactly where nothing is said against it. -/
theorem shapeRefusal_none_iff (t : Txn) (s : State) :
    shapeRefusal t s = none ↔ t.wf s.maxIn.toNat = true := by
  obtain ⟨space, offset, width, access⟩ := t
  cases space <;>
  · simp only [shapeRefusal, Txn.wf, Bool.and_eq_true, beq_iff_eq, decide_eq_true_eq]
    split_ifs <;> simp_all

/-- A transaction of a legal shape is its access. -/
theorem transact_of_wf {t : Txn} {s : State} (h : t.wf s.maxIn.toNat = true) : transact t s = access t s := by
  simp [transact, (shapeRefusal_none_iff t s).2 h]

/-- What a transaction that answers a next state did. -/
theorem transact_next {x : Txn} {s t : State} (h : transact x s = .next t) :
    x.wf s.maxIn.toNat = true ∧
    ((∃ r, x.space = .reg ∧ x.access = .read ∧ regAt x.offset = some r ∧ t = readReg r s) ∨
     (∃ r w, x.space = .reg ∧ x.access = .write w ∧ regAt x.offset = some r ∧ t = writeReg r w s) ∨
     (∃ b, x.space = .inp ∧ x.access = .read ∧ s.inBuf.read x.offset = some b ∧
       t = returnWord (zext32 b) s) ∨
     (∃ w, x.space = .inp ∧ x.access = .write w ∧ s.status ≠ .busy ∧ s.endUnseen = false ∧
       t = { s with inBuf := s.inBuf.write x.offset (w.setWidth 8) }) ∨
     (∃ b, x.space = .out ∧ x.access = .read ∧ s.status = .ok ∧ x.offset < s.outLen.toNat ∧
       s.outBuf.read x.offset = some b ∧ t = returnWord (zext32 b) s) ∨
     (∃ w, x.space = .out ∧ x.access = .write w ∧ t = s)) := by
  unfold transact at h
  split at h
  · cases h
  · next hs =>
    refine ⟨(shapeRefusal_none_iff x s).1 hs, ?_⟩
    obtain ⟨space, offset, width, acc⟩ := x
    cases space <;> cases acc <;> simp only [access, readIn, writeIn, readOut] at h
    · cases hr : regAt offset with
      | none => simp [hr] at h
      | some r => simp [hr] at h; simp [h]
    · cases hr : regAt offset with
      | none => simp [hr] at h
      | some r => simp [hr] at h; simp [h]
    · cases hr : s.inBuf.read offset with
      | none => simp [hr] at h
      | some b => simp [hr] at h; simp [h]
    · split at h
      · cases h
      · next hn =>
        simp only [not_or] at hn
        cases h
        simp [hn.1, hn.2]
    · split at h
      · cases h
      · split at h
        · next hok =>
          cases hr : s.outBuf.read offset with
          | none => simp [hr] at h
          | some b => simp [hr] at h; simp [h, hok.1, hok.2]
        · cases h
    · cases h
      simp

/-- What a line that answers a next state did. -/
theorem performLine_next {l : Line} {s t : State} (h : performLine l s = .next t) :
    (l = .reset ∧ t = resetBlock s) ∨ (l = .poll ∧ t = pollStatus s) ∨
    ∃ x, l = .txn x ∧ transact x s = .next t := by
  cases l with
  | txn x => exact .inr (.inr ⟨x, rfl, h⟩)
  | poll => exact .inr (.inl ⟨rfl, by simpa [performLine] using h.symm⟩)
  | reset => exact .inl ⟨rfl, by simpa [performLine] using h.symm⟩

end Sys2Proof.Machine
end

