-- ==== Sys2Proof/Tests/Slice0.lean ====
section
/-! SUPPORT. Tests with results from spec/95_test_vectors.md, and for each obligation with hypotheses a witness that
meets them together. -/

open Sys2Proof Sys2Proof.Machine Sys2Proof.Claims

namespace Sys2Proof.Tests

/-! ### Small states: an instance with MAX_IN_LEN = 64, TOLERANT, as in 95_test_vectors §2.5 -/

/-- Not BUSY, IN holding `data`, with the given lines to come. -/
def waiting (data : List Byte) (lines : List Line) : State :=
  { State.resetOf 64#32 .tolerant with
    inBuf := Memory.writeBytes [] 0 data
    inLen := BitVec.ofNat 32 data.length
    pending := lines }

/-- A command running over `data`, with the given lines to come before its core step. -/
def running (op : Op) (var : Variant) (data : List Byte) (lines : List Line) : State :=
  { waiting data lines with
    status := .busy
    latchOp := op
    latchVar := var
    latchLen := BitVec.ofNat 32 data.length
    endUnseen := true
    coreWait := lines.length }

/-- Ended in OK with the one output byte 0x00, as after `DEC` of `AA==`. -/
def ended (lines : List Line) : State :=
  { waiting [0x41#8, 0x41#8, 0x3D#8, 0x3D#8] lines with
    status := .ok, latchOp := .dec, latchLen := 4#32, outLen := 1#32, outBuf := [(0, 0x00#8)] }

/-- The next state, where there is one. -/
def nextOf : Result → Option State
  | .next t => some t
  | .fault _ => none
  | .refused _ => none

/-- The fault, where there is one. -/
def faultOf : Result → Option Fault
  | .next _ => none
  | .fault r => some r
  | .refused _ => none

/-- The refusal, where there is one. -/
def refusalOf : Result → Option Refusal
  | .next _ => none
  | .fault _ => none
  | .refused r => some r

/-- `Man`. -/
def man : List Byte := [0x4D#8, 0x61#8, 0x6E#8]

/-- `TWFu`. -/
def twfu : List Byte := [0x54#8, 0x57#8, 0x46#8, 0x75#8]

/-- `T!Fu`. -/
def tbangfu : List Byte := [0x54#8, 0x21#8, 0x46#8, 0x75#8]

/-! ### WellFormed: a term each check refuses -/

theorem test_wf_commands : Instr.encStd.wf = true ∧ Instr.encUrl.wf = true ∧ Instr.dec.wf = true := by decide

theorem test_wf_reserved_bit : (CommandFields.mk 1#2 0#1 1#29).reservedZero = false ∧
    (CommandFields.mk 1#2 0#1 1#29).wf = false := by decide

theorem test_wf_op : (CommandFields.mk 0#2 0#1 0#29).opLegal = false ∧ (CommandFields.mk 3#2 0#1 0#29).opLegal = false ∧
    (CommandFields.mk 3#2 0#1 0#29).wf = false := by decide

theorem test_wf_dec_variant : (CommandFields.mk 2#2 1#1 0#29).varLegal = false ∧
    (CommandFields.mk 2#2 1#1 0#29).wf = false := by decide

/-- 95_test_vectors Z10, 20_memory R61: width 8, offsets 0x02 and 0x20. -/
theorem test_wf_reg : Txn.wf 64 ⟨.reg, 0x1C, 32, .read⟩ = true ∧ Txn.wf 64 ⟨.reg, 0x00, 8, .read⟩ = false ∧
    Txn.wf 64 ⟨.reg, 0x02, 32, .read⟩ = false ∧ Txn.wf 64 ⟨.reg, 0x20, 32, .read⟩ = false := by decide

/-- 20_memory R61: MAX_IN_LEN = 64, MAX_OUT_LEN = 88. -/
theorem test_wf_buffers : Txn.wf 64 ⟨.inp, 63, 8, .read⟩ = true ∧ Txn.wf 64 ⟨.inp, 63, 32, .read⟩ = false ∧
    Txn.wf 64 ⟨.inp, 64, 8, .read⟩ = false ∧ Txn.wf 64 ⟨.out, 87, 8, .read⟩ = true ∧
    Txn.wf 64 ⟨.out, 87, 16, .read⟩ = false ∧ Txn.wf 64 ⟨.out, 88, 8, .read⟩ = false := by decide

/-! ### Decode: words written bit by bit from 30_encoding R70 to R74, `0…0VOO` -/

theorem test_decode_encStd : decodeWord 0b00000000000000000000000000000001#32 = .ok .encStd := by rfl

theorem test_decode_encUrl : decodeWord 0b00000000000000000000000000000101#32 = .ok .encUrl := by rfl

theorem test_decode_dec : decodeWord 0b00000000000000000000000000000010#32 = .ok .dec := by rfl

theorem test_encode : encode .encStd = 0b001#32 ∧ encode .encUrl = 0b101#32 ∧ encode .dec = 0b010#32 := by decide

/-- 95_test_vectors K4, K6, K9, K11. -/
theorem test_decode_reserved :
    decodeWord 0x00000000#32 = .error .reservedOp ∧ decodeWord 0x00000004#32 = .error .reservedOp ∧
    decodeWord 0x00000009#32 = .error .reservedBits ∧ decodeWord 0xFFFFFFFF#32 = .error .reservedBits :=
  ⟨rfl, rfl, rfl, rfl⟩

theorem test_decodeTableWord : decodeTableWord 32 5 = some .encUrl ∧ decodeTableWord 32 3 = none ∧
    decodeTableWord 32 (2 ^ 32 + 1) = none ∧ decodeTableWord 64 1 = none := by decide

/-! ### The commands, one core step each -/

/-- 95_test_vectors W3. -/
theorem test_encStd_man : (nextOf (exec .encStd (running .enc .standard man []))).map
    (fun t => (t.status, t.outLen, t.outBuf)) =
    some (.ok, 4#32, [(0, 0x54#8), (1, 0x57#8), (2, 0x46#8), (3, 0x75#8)]) := by rfl

/-- 95_test_vectors E9, `ENC.STD`: `+/8=`. -/
theorem test_encStd_pads : (nextOf (exec .encStd (running .enc .standard [0xFB#8, 0xFF#8] []))).map
    (fun t => (t.outLen, t.outBuf)) = some (4#32, [(0, 0x2B#8), (1, 0x2F#8), (2, 0x38#8), (3, 0x3D#8)]) := by rfl

/-- 95_test_vectors W2: `AA`. -/
theorem test_encUrl_zero : (nextOf (exec .encUrl (running .enc .urlSafe [0x00#8] []))).map
    (fun t => (t.status, t.outLen, t.outBuf)) = some (.ok, 2#32, [(0, 0x41#8), (1, 0x41#8)]) := by rfl

/-- 95_test_vectors E9, `ENC.URL`: `-_8`. -/
theorem test_encUrl_symbols : (nextOf (exec .encUrl (running .enc .urlSafe [0xFB#8, 0xFF#8] []))).map
    (fun t => (t.outLen, t.outBuf)) = some (3#32, [(0, 0x2D#8), (1, 0x5F#8), (2, 0x38#8)]) := by rfl

/-- 95_test_vectors D31: `AA=\n=`. -/
theorem test_dec_whitespace :
    (nextOf (exec .dec (running .dec .standard [0x41#8, 0x41#8, 0x3D#8, 0x0A#8, 0x3D#8] []))).map
      (fun t => (t.status, t.outLen, t.outBuf)) = some (.ok, 1#32, [(0, 0x00#8)]) := by rfl

/-- 95_test_vectors D29: `AA==!`. -/
theorem test_dec_misplaced_pad :
    (nextOf (exec .dec (running .dec .standard [0x41#8, 0x41#8, 0x3D#8, 0x3D#8, 0x21#8] []))).map
      (fun t => (t.status, t.errCode, t.errPos, t.outLen)) = some (.error, 0x3D#8, 2#32, 0#32) := by rfl

/-- 95_test_vectors D17, D22, D26, D33. -/
theorem test_decode_buffer :
    decodeBuffer .tolerant [0x2B#8, 0x2D#8, 0x2F#8, 0x5F#8] = .ok [0xFB#8, 0xEF#8, 0xFF#8] ∧
    decodeBuffer .strict [0x20#8, 0x41#8] = .error ⟨0x20#8, 0⟩ ∧
    decodeBuffer .tolerant [0x21#8, 0x41#8, 0x3D#8, 0x41#8] = .error ⟨0x21#8, 0⟩ ∧
    decodeBuffer .tolerant [0x54#8, 0x57#8, 0x0A#8, 0x46#8, 0x75#8] = .ok man := ⟨rfl, rfl, rfl, rfl⟩

/-- The step after `withFetchWord` runs the command (the empty input of reset). -/
theorem test_withFetchWord :
    (nextOf (step (State.reset.withFetchWord 32 1))).map (fun t => (t.status, t.latchVar)) =
      some (.ok, .standard) ∧
    (nextOf (step (State.reset.withFetchWord 32 5))).map (fun t => (t.status, t.latchVar)) =
      some (.ok, .urlSafe) ∧
    (nextOf (step (State.reset.withFetchWord 32 2))).map (fun t => (t.status, t.latchOp)) = some (.ok, .dec) ∧
    (nextOf (step (State.reset.withFetchWord 32 3))).map (fun t => (t.status, t.errCode)) =
      some (.rejected, 0x01#8) := ⟨rfl, rfl, rfl, rfl⟩

/-! ### Lines of the host -/

/-- 95_test_vectors K13, K14. -/
theorem test_cmd_rejected :
    (nextOf (step { waiting [] [Line.issueEncStd] with inLen := 65#32 })).map (fun t => (t.status, t.errCode)) =
      some (.rejected, 0x02#8) ∧
    (nextOf (step { waiting [] [Line.wr 0x00 3#32] with inLen := 65#32 })).map (fun t => (t.status, t.errCode)) =
      some (.rejected, 0x01#8) := ⟨rfl, rfl⟩

/-- 95_test_vectors K12, K3. -/
theorem test_cmd_accepted :
    (nextOf (step { waiting [] [Line.issueEncStd] with inLen := 64#32 })).map (fun t => (t.status, t.latchLen)) =
      some (.busy, 64#32) ∧
    (nextOf (step (waiting twfu [Line.issueDec]))).map (fun t => (t.status, t.latchOp, t.latchLen)) =
      some (.busy, .dec, 4#32) := ⟨rfl, rfl⟩

/-- 95_test_vectors Z4, Z5, Z6, Z8, Z9. -/
theorem test_duties :
    faultOf (step (running .enc .standard man [Line.wrin 0 0x00#8])) = some (.inWriteDuringCommand 0) ∧
    faultOf (step (running .enc .standard man [Line.rdout 0])) = some (.outReadWhileBusy 0) ∧
    faultOf (step { running .dec .standard man [] with latchLen := 4#32 }) = some (.unwrittenInput 3) ∧
    faultOf (step (ended [Line.rdout 1])) = some (.outReadUnspecified 1) ∧
    faultOf (step { waiting [] [Line.rdout 0] with status := .error }) = some (.outReadUnspecified 0) :=
  ⟨rfl, rfl, rfl, rfl, rfl⟩

/-- 95_test_vectors Z10. -/
theorem test_refused :
    refusalOf (step (waiting [] [Line.rd 0x02])) = some .regMisaligned ∧
    refusalOf (step (waiting [] [Line.rd 0x20])) = some .regOutOfRange ∧
    refusalOf (step (waiting [] [.txn ⟨.reg, 0x00, 8, .read⟩])) = some .regWidth := ⟨rfl, rfl, rfl⟩

/-- 95_test_vectors Z2: reset while BUSY. -/
theorem test_reset_abandons :
    (nextOf (step (running .enc .standard man [.reset]))).map (fun t => (t.status, t.inBuf, t.pending)) =
      some (.idle, [], []) := by rfl

/-- 95_test_vectors P5, end states (a) and (b): both orders of an early CMD write and the core step. -/
theorem test_both_interleavings :
    (nextOf (step { running .enc .standard [0x00#8] [Line.issueEncUrl] with coreWait := 1 })).map
      (fun t => (t.status, t.latchVar)) = some (.busy, .standard) ∧
    (nextOf (step { running .enc .standard [0x00#8] [Line.issueEncUrl] with coreWait := 0 })).map
      (fun t => (t.status, t.pending)) = some (.ok, [Line.issueEncUrl]) := ⟨rfl, rfl⟩

/-! ### Alphabet: 95_test_vectors A5, A8, A11, A15, G1, H1 -/

theorem test_classify :
    classify 0x30#8 .tolerant = .sym 52#6 ∧ classify 0x2D#8 .strict = .sym 62#6 ∧
    classify 0x3D#8 .tolerant = .pad ∧ classify 0x20#8 .tolerant = .ws ∧ classify 0x20#8 .strict = .inv := by decide

theorem test_group_word :
    packBytes 0x4D#8 0x61#8 0x6E#8 = 0x4D616E#24 ∧ groupIndex 0x4D616E#24 3 = 46#6 ∧
    packSyms 19#6 22#6 5#6 46#6 = 0x4D616E#24 ∧ groupByte 0x4D616E#24 1 = 0x61#8 := by decide

/-! ### Witnesses: states and operands that meet an obligation's hypotheses together -/

theorem inBound_of {data : List Byte} (h : data.length ≤ 64) (i : Nat)
    (hi : Memory.read (Memory.writeBytes [] 0 data) i ≠ none) : i < 64 := by
  rw [Memory.read_writeBytes] at hi
  by_contra hlt
  apply hi
  rw [if_neg (by omega)]
  rfl

/-- The invariant in the small states. -/
theorem inv_running (op : Op) (var : Variant) {data : List Byte} (h : data.length ≤ 64) (lines : List Line) :
    MachineInv (running op var data lines) where
  inWf := Memory.writeBytes_wf rfl 0 data
  outWf := rfl
  inBound := fun i hi => inBound_of h i hi
  maxBound := show (64#32).toNat ≤ Config.maxInLenBound by decide
  results := ⟨rfl, rfl, rfl, rfl, show BitVec.ofNat 32 data.length ≤ 64#32 by
    rw [BitVec.le_def, BitVec.toNat_ofNat]
    exact le_trans (Nat.mod_le _ _) h⟩

theorem inv_ended (lines : List Line) : MachineInv (ended lines) where
  inWf := rfl
  outWf := rfl
  inBound := fun i hi => inBound_of (data := [0x41#8, 0x41#8, 0x3D#8, 0x3D#8]) (by decide) i hi
  maxBound := show (64#32).toNat ≤ Config.maxInLenBound by decide
  results := ⟨rfl, rfl, show (1#32).toNat ≤ maxOutLen (64#32).toNat by decide, fun j => by
    show (if 0 = j then some 0x00#8 else Memory.read [] j) ≠ none ↔ j < 1
    by_cases hj : 0 = j
    · simp [← hj]
    · simp [hj, Memory.read, Memory.unlisted]; omega⟩

theorem cleanBefore_of {p : Profile} {data : List Byte} {i : Nat}
    (h : ∀ c ∈ data.take i, classify c p ≠ .pad ∧ classify c p ≠ .inv) : cleanBefore p data i := by
  intro k hk
  have hm : ∀ c, data[k]? = some c → c ∈ data.take i := fun c hc =>
    List.mem_of_getElem? (i := k) (by rw [List.getElem?_take_of_lt hk]; exact hc)
  exact ⟨fun ⟨c, hc, h'⟩ => (h c (hm c hc)).1 h', fun ⟨c, hc, h'⟩ => (h c (hm c hc)).2 h'⟩

theorem witness_CommandWordDecodeIsExact :
    Instr.encStd.wf = true ∧ Instr.encUrl.wf = true ∧ Instr.dec.wf = true := by decide

theorem witness_StepRunsLatchedCommand :
    (let s := running .dec .standard twfu [.poll]
     { s with coreWait := 0 }.status = .busy ∧ { s with coreWait := 0 }.coreWait = 0) ∧
    (let s := running .dec .standard twfu []
     { s with coreWait := 7 }.status = .busy ∧ { s with coreWait := 7 }.pending = []) ∧
    decodeTableWord 32 5 = some .encUrl := by decide

theorem witness_StepPerformsNextLineOrIsStuck :
    ((waiting man [.poll]).pending = [.poll] ∧ (waiting man [.poll]).status ≠ .busy) ∧
    ((running .enc .standard man [.poll]).pending = [.poll] ∧
      (running .enc .standard man [.poll]).coreWait ≠ 0) := by decide

theorem witness_CoreStepComesAfterFinitelyManyLines :
    let s := running .enc .standard man [.poll, .reset]
    s.status = .busy ∧ coreMoves s = false ∧ ∃ t, step s = .next t := ⟨rfl, rfl, _, rfl⟩

theorem witness_EncStdCompletes :
    (let s := running .enc .standard man []
     s.status = .busy ∧ s.latchOp = .enc ∧ s.latchVar = .standard ∧ inputIs s s.latchLen.toNat man) ∧
    inputIs (running .enc .standard [0x4D#8] []) 1 [0x4D#8] ∧
    inputIs (running .enc .standard [0x4D#8, 0x61#8] []) 2 [0x4D#8, 0x61#8] :=
  ⟨⟨rfl, rfl, rfl, rfl, by decide⟩, ⟨rfl, by decide⟩, ⟨rfl, by decide⟩⟩

theorem witness_EncUrlCompletes :
    let s := running .enc .urlSafe man []
    s.status = .busy ∧ s.latchOp = .enc ∧ s.latchVar = .urlSafe ∧ inputIs s s.latchLen.toNat man :=
  ⟨rfl, rfl, rfl, rfl, by decide⟩

/-- Both outcomes of `DEC`: output, and InvalidSymbol. -/
theorem witness_DecCompletes :
    (let s := running .dec .standard twfu []
     s.status = .busy ∧ s.latchOp = .dec ∧ inputIs s s.latchLen.toNat twfu ∧
       decodeBuffer s.profile twfu = .ok man) ∧
    (let s := running .dec .urlSafe tbangfu []
     s.status = .busy ∧ s.latchOp = .dec ∧ inputIs s s.latchLen.toNat tbangfu ∧
       decodeBuffer s.profile tbangfu = .error ⟨0x21#8, 1⟩) :=
  ⟨⟨rfl, rfl, ⟨rfl, by decide⟩, rfl⟩, ⟨rfl, rfl, ⟨rfl, by decide⟩, rfl⟩⟩

theorem witness_EmptyInputGivesEmptyOutput :
    (running .dec .standard [] []).status = .busy ∧ (running .dec .standard [] []).latchLen = 0#32 := by decide

theorem witness_CoreStepFrame :
    (∃ t, exec .encStd (running .enc .standard man []) = .next t) ∧
    (∃ t, exec .encUrl (running .enc .urlSafe man []) = .next t) ∧
    (∃ t, exec .dec (running .dec .standard twfu []) = .next t) ∧
    (∃ t, exec .dec (running .dec .standard tbangfu []) = .next t) :=
  ⟨⟨_, rfl⟩, ⟨_, rfl⟩, ⟨_, rfl⟩, ⟨_, rfl⟩⟩

/-- The lowest and the highest index of the input, and a step that is not enabled for each reason. -/
theorem witness_CoreStepStopsOverUnwrittenInput :
    (let s := running .dec .standard [] []
     let s := { s with latchLen := 1#32 }
     s.status = .busy ∧ latchedInstr s = .dec ∧ 0 < s.latchLen.toNat ∧ s.inBuf.read 0 = none) ∧
    (let s := running .enc .urlSafe man []
     let s := { s with latchLen := 4#32 }
     s.status = .busy ∧ latchedInstr s = .encUrl ∧ 3 < s.latchLen.toNat ∧ s.inBuf.read 3 = none ∧
       ∀ j, j < 3 → s.inBuf.read j ≠ none) ∧
    (waiting man []).status ≠ .busy ∧ latchedInstr (running .dec .standard man []) ≠ .encStd := by decide

theorem witness_ResultDependsOnlyOnInput :
    let s := running .dec .standard twfu []
    let s' := { s with inLen := 9#32, pending := [.poll], inBuf := s.inBuf.write 9 0x00#8 }
    s'.status = .busy ∧ latchedInstr s' = .dec ∧ s'.latchLen = s.latchLen ∧ s'.profile = s.profile ∧
      (∀ k, k < s.latchLen.toNat → s'.inBuf.read k = s.inBuf.read k) ∧ ∃ t, exec .dec s = .next t :=
  ⟨rfl, rfl, rfl, rfl, by decide, _, rfl⟩

/-- Each clause: IN_LEN = MAX_IN_LEN, IN_LEN = MAX_IN_LEN + 1, a reserved word. -/
theorem witness_CmdWriteIssuesCommand :
    (let s := { waiting [] [Line.wr 0x00 0x00000001#32] with inLen := 64#32 }
     s.status ≠ .busy ∧ s.pending = Line.wr 0x00 0x00000001#32 :: [] ∧ ¬ s.maxIn < s.inLen) ∧
    (let s := { waiting [] [Line.wr 0x00 0x00000002#32] with inLen := 65#32 }
     s.status ≠ .busy ∧ s.pending = Line.wr 0x00 0x00000002#32 :: [] ∧ s.maxIn < s.inLen) ∧
    (let s := waiting [] [Line.wr 0x00 0x00000006#32]
     s.status ≠ .busy ∧ s.pending = Line.wr 0x00 0x00000006#32 :: []) := by decide

theorem witness_CmdWriteWhileBusyIsIgnored :
    let s := running .enc .standard man [Line.wr 0x00 0x00000002#32]
    s.status = .busy ∧ hostTurn s (Line.wr 0x00 0x00000002#32) [] := ⟨rfl, rfl, rfl⟩

/-- The lowest and the highest register, BUSY and not. -/
theorem witness_RegisterReadsReturnTheirWords :
    hostTurn (waiting man [Line.rd 0x00]) (Line.rd 0x00) [] ∧
    hostTurn (running .enc .standard man [Line.rd 0x1C]) (Line.rd 0x1C) [] ∧
    0x00 % 4 = 0 ∧ 0x1C % 4 = 0 ∧ 0x1C < 0x20 := ⟨⟨rfl, rfl⟩, ⟨rfl, rfl⟩, rfl, rfl, by decide⟩

/-- One read in each space. -/
theorem witness_ReadsChangeNothingOfTheBlock :
    (hostTurn (ended [Line.rd 0x04]) (.txn ⟨.reg, 0x04, 32, .read⟩) [] ∧
      ∃ t, step (ended [Line.rd 0x04]) = .next t) ∧
    (hostTurn (ended [Line.rdin 3]) (.txn ⟨.inp, 3, 8, .read⟩) [] ∧ ∃ t, step (ended [Line.rdin 3]) = .next t) ∧
    (hostTurn (ended [Line.rdout 0]) (.txn ⟨.out, 0, 8, .read⟩) [] ∧ ∃ t, step (ended [Line.rdout 0]) = .next t) :=
  ⟨⟨⟨rfl, rfl⟩, _, rfl⟩, ⟨⟨rfl, rfl⟩, _, rfl⟩, ⟨⟨rfl, rfl⟩, _, rfl⟩⟩

theorem witness_IgnoredWritesChangeNothing :
    hostTurn (waiting man [Line.wr 0x04 9#32]) (Line.wr 0x04 9#32) [] ∧
    hostTurn (running .enc .standard man [Line.wr 0x1C 9#32]) (Line.wr 0x1C 9#32) [] ∧
    87 < maxOutLen (waiting man []).maxIn.toNat ∧
    hostTurn (waiting man [.txn ⟨.out, 87, 8, .write 9#32⟩]) (.txn ⟨.out, 87, 8, .write 9#32⟩) [] :=
  ⟨⟨rfl, rfl⟩, ⟨rfl, rfl⟩, by decide, ⟨rfl, rfl⟩⟩

/-- A write, and the two events that change IN_LEN. -/
theorem witness_InLenHoldsTheLastWrite :
    hostTurn (running .enc .standard man [Line.wr 0x08 0xFFFFFFFF#32]) (Line.wr 0x08 0xFFFFFFFF#32) [] ∧
    (∃ t, step (waiting man [Line.wr 0x08 0xFFFFFFFF#32]) = .next t ∧ t.inLen ≠ 3#32) ∧
    (∃ t, step (waiting man [.reset]) = .next t ∧ t.inLen ≠ 3#32) :=
  ⟨⟨rfl, rfl⟩, ⟨_, rfl, by decide⟩, ⟨_, rfl, by decide⟩⟩

/-- Every edge of 10_state R37 that changes STATE. -/
theorem witness_StatusMovesOnlyAlongItsEdges :
    (∃ t, step (ended [.reset]) = .next t ∧ t.status = .idle) ∧
    (∃ t, step (ended [Line.issueDec]) = .next t ∧ t.status = .busy) ∧
    (∃ t, step (ended [Line.wr 0x00 0#32]) = .next t ∧ t.status = .rejected) ∧
    (∃ t, step (running .enc .standard man []) = .next t ∧ t.status = .ok) ∧
    (∃ t, step (running .dec .standard tbangfu []) = .next t ∧ t.status = .error) :=
  ⟨⟨_, rfl, rfl⟩, ⟨_, rfl, rfl⟩, ⟨_, rfl, rfl⟩, ⟨_, rfl, rfl⟩, ⟨_, rfl, rfl⟩⟩

theorem witness_InstanceConstantsNeverChange :
    (∃ t, step (ended [.reset]) = .next t) ∧ ∃ t, step (running .enc .standard man []) = .next t :=
  ⟨⟨_, rfl⟩, ⟨_, rfl⟩⟩

theorem witness_ResultsStayUntilNextCommand :
    let s := ended [Line.rd 0x0C]
    s.status ≠ .busy ∧ s.pending = Line.rd 0x0C :: [] ∧ (Line.rd 0x0C).isCmdWrite = false ∧
      Line.rd 0x0C ≠ .reset ∧ ∃ t, step s = .next t :=
  ⟨by decide, rfl, rfl, by decide, _, rfl⟩

/-- Acceptance, and reset. -/
theorem witness_LatchChangesOnlyAtAcceptance :
    (∃ t, step (waiting man [Line.issueDec]) = .next t ∧ t.latchOp ≠ (waiting man [Line.issueDec]).latchOp) ∧
    (∃ t, step (ended [.reset]) = .next t ∧ t.latchOp ≠ (ended [.reset]).latchOp) :=
  ⟨⟨_, rfl, by decide⟩, ⟨_, rfl, by decide⟩⟩

theorem witness_EarlyResultReadsReturnZero :
    let s := running .enc .standard [] [Line.rd 0x14]
    MachineInv s ∧ s.status = .busy ∧ (0x14 = 0x0C ∨ 0x14 = 0x10 ∨ 0x14 = 0x14) ∧ hostTurn s (Line.rd 0x14) [] :=
  ⟨inv_running _ _ (by decide) _, rfl, by decide, rfl, rfl⟩

/-- A refused transaction, one at the boundary that is not refused, and a step that is refused. -/
theorem witness_RefusesExactlyIllShapedTransactions :
    hostTurn (waiting man [.txn ⟨.inp, 64, 8, .read⟩]) (.txn ⟨.inp, 64, 8, .read⟩) [] ∧
    hostTurn (waiting man [.txn ⟨.inp, 63, 8, .write 0#32⟩]) (.txn ⟨.inp, 63, 8, .write 0#32⟩) [] ∧
    step (waiting man [.txn ⟨.inp, 64, 8, .read⟩]) = .refused .inOutOfRange ∧
    ∃ t, step (waiting man [.txn ⟨.inp, 63, 8, .write 0#32⟩]) = .next t :=
  ⟨⟨rfl, rfl⟩, ⟨rfl, rfl⟩, rfl, _, rfl⟩

/-- The highest index written, and the lowest read. -/
theorem witness_InBufferStoresAndReturnsBytes :
    (let s := waiting man [Line.wrin 63 0xFF#8]
     63 < s.maxIn.toNat ∧ s.status ≠ .busy ∧ s.endUnseen = false ∧ s.pending = Line.wrin 63 0xFF#8 :: []) ∧
    (let s := running .enc .standard man [Line.rdin 0]
     0 < s.maxIn.toNat ∧ s.inBuf.read 0 = some 0x4D#8 ∧ coreMoves s = false ∧ s.pending = Line.rdin 0 :: []) := by
  decide

/-- A byte that changes by a write, and one that changes by reset. -/
theorem witness_InChangesOnlyByHostWriteOrReset :
    (∃ t, step (waiting man [Line.wrin 63 0xFF#8]) = .next t ∧
      t.inBuf.read 63 ≠ (waiting man [Line.wrin 63 0xFF#8]).inBuf.read 63) ∧
    (∃ t, step (waiting man [.reset]) = .next t ∧ t.inBuf.read 0 ≠ (waiting man [.reset]).inBuf.read 0) :=
  ⟨⟨_, rfl, by decide⟩, ⟨_, rfl, by decide⟩⟩

/-- A byte the core step writes, one that a CMD write and one that reset leaves without a value. -/
theorem witness_OutChangesOnlyByCoreOrLosesItsValue :
    (MachineInv (running .enc .standard man []) ∧ ∃ t, step (running .enc .standard man []) = .next t ∧
      t.outBuf.read 3 ≠ (running .enc .standard man []).outBuf.read 3) ∧
    (MachineInv (ended [Line.issueDec]) ∧ ∃ t, step (ended [Line.issueDec]) = .next t ∧
      t.outBuf.read 0 ≠ (ended [Line.issueDec]).outBuf.read 0) ∧
    (MachineInv (ended [.reset]) ∧ ∃ t, step (ended [.reset]) = .next t ∧
      t.outBuf.read 0 ≠ (ended [.reset]).outBuf.read 0) :=
  ⟨⟨inv_running _ _ (by decide) _, _, rfl, by decide⟩, ⟨inv_ended _, _, rfl, by decide⟩,
    ⟨inv_ended _, _, rfl, by decide⟩⟩

theorem witness_OutBufferReturnsTheOutput :
    let s := ended [Line.rdout 0]
    MachineInv s ∧ s.status = .ok ∧ 0 < s.outLen.toNat ∧ s.pending = Line.rdout 0 :: [] :=
  ⟨inv_ended _, rfl, by decide, rfl⟩

/-- Each clause, at the highest index. -/
theorem witness_HostDutyBreachesFault :
    (let s := running .enc .standard man [Line.wrin 63 0#8]
     63 < s.maxIn.toNat ∧ s.status = .busy ∧ hostTurn s (Line.wrin 63 0#8) []) ∧
    (let s := { ended [Line.wrin 0 0#8] with endUnseen := true }
     0 < s.maxIn.toNat ∧ s.endUnseen = true ∧ hostTurn s (Line.wrin 0 0#8) []) ∧
    (let s := running .enc .standard man [Line.rdout 87]
     87 < maxOutLen s.maxIn.toNat ∧ s.status = .busy ∧ hostTurn s (Line.rdout 87) []) ∧
    (let s := waiting man [Line.rdin 63]
     63 < s.maxIn.toNat ∧ s.inBuf.read 63 = none ∧ hostTurn s (Line.rdin 63) []) ∧
    (let s := ended [Line.rdout 1]
     1 < maxOutLen s.maxIn.toNat ∧ s.status ≠ .busy ∧ s.outLen.toNat ≤ 1 ∧ s.pending = Line.rdout 1 :: []) ∧
    (let s := waiting man [Line.rdout 0]
     0 < maxOutLen s.maxIn.toNat ∧ s.status ≠ .busy ∧ s.status ≠ .ok ∧ s.pending = Line.rdout 0 :: []) :=
  ⟨⟨by decide, rfl, rfl, rfl⟩, ⟨by decide, rfl, rfl, rfl⟩, ⟨by decide, rfl, rfl, rfl⟩,
    ⟨by decide, rfl, rfl, rfl⟩, by decide, by decide⟩

/-- The window opens at an accepted CMD write, and closes at each of the three lines. -/
theorem witness_InWriteWindowOpensAndCloses :
    (∃ t, step (waiting man [Line.issueDec]) = .next t ∧ t.status = .busy ∧
      (waiting man [Line.issueDec]).status ≠ .busy) ∧
    (∃ t, step { ended [Line.rd 0x04] with endUnseen := true } = .next t ∧ t.endUnseen = false) ∧
    (∃ t, step { ended [.poll] with endUnseen := true } = .next t ∧ t.endUnseen = false) ∧
    (∃ t, step { ended [.reset] with endUnseen := true } = .next t ∧ t.endUnseen = false) ∧
    coreMoves (ended [.poll]) = false ∧ (ended [.poll]).status ≠ .busy :=
  ⟨⟨_, rfl, rfl, by decide⟩, ⟨_, rfl, rfl⟩, ⟨_, rfl, rfl⟩, ⟨_, rfl, rfl⟩, rfl, by decide⟩

theorem witness_PollRepeatsWhileBusy :
    hostTurn (running .enc .standard man [.poll]) .poll [] ∧ hostTurn (ended [.poll]) .poll [] :=
  ⟨⟨rfl, rfl⟩, ⟨rfl, rfl⟩⟩

theorem witness_ResetGivesResetValues :
    hostTurn (running .enc .standard man [.reset]) .reset [] ∧ hostTurn (ended [.reset]) .reset [] :=
  ⟨⟨rfl, rfl⟩, ⟨rfl, rfl⟩⟩

/-- A step of the core and one of the host. -/
theorem witness_StepKeepsInvariant :
    (MachineInv (running .enc .standard [] []) ∧ ∃ t, step (running .enc .standard [] []) = .next t) ∧
    (MachineInv (ended [Line.rdout 0]) ∧ ∃ t, step (ended [Line.rdout 0]) = .next t) :=
  ⟨⟨inv_running _ _ (by decide) _, _, rfl⟩, ⟨inv_ended _, _, rfl⟩⟩

/-- The core to move, and the host to move: a CMD write whose input is written. -/
theorem witness_DutifulHostIsNeverStopped :
    (let s := running .enc .standard [] []
     MachineInv s ∧ inputReady s ∧ (s.status = .busy ∨ s.pending ≠ []) ∧ coreMoves s = true) ∧
    (let s := ended [Line.issueDec]
     MachineInv s ∧ inputReady s ∧ (s.status = .busy ∨ s.pending ≠ []) ∧
       (coreMoves s = false → ∀ l, s.pending.head? = some l → lineSafe l s)) := by
  refine ⟨⟨inv_running _ _ (by decide) _, fun _ k hk => absurd hk (Nat.not_lt_zero k), .inl rfl, rfl⟩, inv_ended _,
    fun h => absurd h (by decide), .inr (by decide), fun _ l hl => ?_⟩
  cases hl
  refine ⟨rfl, fun _ _ _ _ => ?_⟩
  show ∀ k, k < 4 → _
  decide

theorem witness_TablesHoldTheAlphabets : (rev 0x41#8).toNat ≤ 63 ∧ (rev 0x5F#8).toNat ≤ 63 := by decide

/-- The lowest and highest codes of each range. -/
theorem witness_EveryByteHasItsClass :
    ((0x00#8).toNat < 0x20 ∧ 0x00#8 ∉ wsCodes) ∧ ((0x1F#8).toNat < 0x20 ∧ 0x1F#8 ∉ wsCodes) ∧
    0x7F#8 ∉ wsCodes ∧ 0x80 ≤ (0x80#8).toNat ∧ 0x80 ≤ (0xFF#8).toNat := by decide

theorem witness_FieldsAreShiftAndMask : 0 < 4 ∧ 3 < 4 ∧ 0 < 3 ∧ 2 < 3 := by decide

theorem witness_OutputFitsOut :
    man.length ≤ 3 ∧ twfu.length ≤ 4 ∧ decodeBuffer .strict twfu = .ok man := ⟨by decide, by decide, rfl⟩

/-- 95_test_vectors H4, H5 and H6. -/
theorem witness_DecodeGroupBytes :
    (1#6).toNat / 16 = (15#6).toNat / 16 ∧ (0#6).toNat / 4 = (1#6).toNat / 4 := by decide

theorem witness_DecodeGroupInvertsEncodeGroup :
    (1 ≤ [0x4D#8].length ∧ [0x4D#8].length ≤ 3) ∧ (1 ≤ man.length ∧ man.length ≤ 3) := by decide

/-- `AA`, and the lone symbol `A`. -/
theorem witness_DecodeOutputLength :
    (scan .strict [0x41#8, 0x41#8] = .ok [(0#6, 0), (0#6, 1)] ∧ 2 % 4 ≠ 1) ∧
    (scan .tolerant [0x20#8, 0x41#8] = .ok [(0#6, 1)] ∧ 1 % 4 = 1 ∧ [(0#6, 1)].getLast? = some (0#6, 1)) :=
  ⟨⟨rfl, by decide⟩, rfl, rfl, rfl⟩

theorem witness_ScanReturnsTheSymbols : scan .tolerant [0x20#8, 0x41#8, 0x3D#8] = .ok [(0#6, 1)] := by rfl

/-- The three cases: 95_test_vectors D24, D27, D20. -/
theorem witness_ErrorCodeTellsTheCase :
    decodeBuffer .tolerant tbangfu = .error ⟨0x21#8, 1⟩ ∧
    decodeBuffer .tolerant [0x41#8, 0x3D#8, 0x41#8, 0x41#8] = .error ⟨0x3D#8, 1⟩ ∧
    decodeBuffer .tolerant [0x41#8] = .error ⟨0x41#8, 0⟩ := ⟨rfl, rfl, rfl⟩

theorem witness_FirstInvalidCharacterIsReported :
    tbangfu[1]? = some 0x21#8 ∧ classify 0x21#8 .tolerant = .inv ∧ cleanBefore .tolerant tbangfu 1 :=
  ⟨rfl, by decide, cleanBefore_of (by decide)⟩

/-- `A=AA`, `AA==!` and `AA===`. -/
theorem witness_MisplacedPadIsReportedAtFirstPad :
    (let data := [0x41#8, 0x3D#8, 0x41#8, 0x41#8]
     classAt .strict data 1 .pad ∧ cleanBefore .strict data 1 ∧ 1 < 2 ∧ symAt .strict data 2) ∧
    (let data := [0x41#8, 0x41#8, 0x3D#8, 0x3D#8, 0x21#8]
     classAt .tolerant data 2 .pad ∧ cleanBefore .tolerant data 2 ∧ 2 < 4 ∧ classAt .tolerant data 4 .inv) ∧
    (let data := [0x41#8, 0x41#8, 0x3D#8, 0x3D#8, 0x3D#8]
     classAt .tolerant data 2 .pad ∧ cleanBefore .tolerant data 2 ∧ 3 ≤ data.count padByte) :=
  ⟨⟨⟨_, rfl, by decide⟩, cleanBefore_of (by decide), by decide, ⟨0#6, _, rfl, by decide⟩⟩,
    ⟨⟨_, rfl, by decide⟩, cleanBefore_of (by decide), by decide, ⟨_, rfl, by decide⟩⟩,
    ⟨⟨_, rfl, by decide⟩, cleanBefore_of (by decide), by decide⟩⟩

theorem witness_PadCountIsNotChecked : cleanBefore .strict [0x41#8, 0x41#8] 2 ∧ 0 ≤ 2 ∧ 2 ≤ 2 :=
  ⟨cleanBefore_of (by decide), by decide, by decide⟩

/-- `=
=`, and a scan that returns no symbol. -/
theorem witness_InputWithoutSymbolsGivesNothing :
    (let data := [0x3D#8, 0x0A#8, 0x3D#8]
     (∀ c ∈ data, c ∈ padByte :: wsCodes) ∧ data.count padByte ≤ 2) ∧
    scan .strict [0x3D#8, 0x3D#8] = .ok [] := ⟨by decide, rfl⟩

theorem witness_ProfilesAgreeWithoutWhitespace : ∀ c ∈ tbangfu, c ∉ wsCodes := by decide

end Sys2Proof.Tests
end

section
/-! SUPPORT. How long an encoder's or a decoder's output is, and that a decode error lies inside the input. -/

namespace Sys2Proof.Machine

/-! ### Output lengths (41_encode R114, R124, 42_decode R156, R161) -/

theorem encodeBuffer_length (var : Variant) (data : List Byte) :
    (encodeBuffer var data).length =
      match var with
      | .standard => 4 * ((data.length + 2) / 3)
      | .urlSafe => (4 * data.length + 2) / 3 := by
  induction data using groups3_induction with
  | h0 => cases var <;> rfl
  | h1 a => cases var <;> simp [encodeBuffer_one, encodeGroup_length]
  | h2 a b => cases var <;> simp [encodeBuffer_two, encodeGroup_length]
  | h3 a b c rest ih =>
    rw [encodeBuffer_three, List.length_append, encodeGroup_length, ih]
    cases var <;> simp only [List.length_cons, List.length_nil] <;> omega

theorem encodeBuffer_length_le (var : Variant) {data : List Byte} {n : Nat} (h : data.length ≤ n) :
    (encodeBuffer var data).length ≤ maxOutLen n := by
  rw [encodeBuffer_length, maxOutLen]
  cases var <;> simp only <;> omega

theorem unpackSyms_length (vals : List Sym) : (unpackSyms vals).length = 3 * vals.length / 4 := by
  induction vals using groups4_induction with
  | h0 => rfl
  | h1 a => simp [unpackSyms_one]
  | h2 a b => simp [unpackSyms_two, decodeGroup_length]
  | h3 a b c => simp [unpackSyms_three, decodeGroup_length]
  | h4 a b c d rest ih =>
    simp only [unpackSyms_four, List.length_append, decodeGroup_length, ih, List.length_cons, List.length_nil]
    omega

/-! ### The scan stays inside its input -/

/-- What the scan does with one byte: it passes over it, keeping or setting the first pad; it reports the first pad
or, with none, this byte; or, with no pad before it, it returns it as a symbol. -/
theorem scanFrom_cons_cases (p : Profile) (i : Nat) (firstPad : Option Nat) (padCount : Nat) (c : Byte)
    (rest : List Byte) :
    (∃ fp k, (fp = firstPad ∨ fp = some (firstPad.getD i)) ∧
      scanFrom p i firstPad padCount (c :: rest) = scanFrom p (i + 1) fp k rest) ∨
    (∃ e, e.pos = firstPad.getD i ∧ scanFrom p i firstPad padCount (c :: rest) = .error e) ∨
    (firstPad = none ∧ ∃ v, scanFrom p i firstPad padCount (c :: rest) =
      (scanFrom p (i + 1) none padCount rest).map (fun syms => (v, i) :: syms)) := by
  cases hc : classify c p with
  | ws => exact .inl ⟨_, _, .inl rfl, scanFrom_ws _ _ _ _ hc⟩
  | pad =>
    by_cases hk : padCount ≤ 1
    · exact .inl ⟨_, _, .inr rfl, scanFrom_pad _ _ _ _ hc hk⟩
    · exact .inr (.inl ⟨_, rfl, scanFrom_third_pad _ _ _ _ hc (by omega)⟩)
  | inv =>
    cases firstPad with
    | none => exact .inr (.inl ⟨_, rfl, scanFrom_inv _ _ _ hc⟩)
    | some q => exact .inr (.inl ⟨_, rfl, scanFrom_inv_after_pad _ _ _ q hc⟩)
  | sym v =>
    cases firstPad with
    | none => exact .inr (.inr ⟨rfl, v, scanFrom_sym _ _ _ hc⟩)
    | some q => exact .inr (.inl ⟨_, rfl, scanFrom_sym_after_pad _ _ _ q hc⟩)

/-- A clean scan returns at most one symbol per byte, each at a position of the input. -/
theorem scanFrom_ok_bounds {p : Profile} {data : List Byte} {i : Nat} {firstPad : Option Nat} {padCount : Nat}
    {syms : List (Sym × Nat)} (h : scanFrom p i firstPad padCount data = .ok syms) :
    syms.length ≤ data.length ∧ ∀ vq ∈ syms, vq.2 < i + data.length := by
  induction data generalizing i firstPad padCount syms with
  | nil => cases h; simp
  | cons c rest ih =>
    obtain ⟨fp, k, -, heq⟩ | ⟨e, -, heq⟩ | ⟨-, v, heq⟩ := scanFrom_cons_cases p i firstPad padCount c rest
    · obtain ⟨hlen, hpos⟩ := ih (heq ▸ h)
      rw [List.length_cons]
      exact ⟨by omega, fun vq hvq => by have := hpos vq hvq; omega⟩
    · rw [heq] at h; cases h
    · rw [heq] at h
      cases hrest : scanFrom p (i + 1) none padCount rest with
      | error e => rw [hrest] at h; cases h
      | ok tail =>
        rw [hrest] at h
        cases h
        obtain ⟨hlen, hpos⟩ := ih hrest
        rw [List.length_cons, List.length_cons]
        refine ⟨by omega, fun vq hvq => ?_⟩
        rcases List.mem_cons.1 hvq with rfl | hvq
        · show i < _; omega
        · have := hpos vq hvq; omega

/-- A scan reports a position of the input, or the first pad it began with. -/
theorem scanFrom_error_pos {p : Profile} {data : List Byte} {i : Nat} {firstPad : Option Nat} {padCount : Nat}
    {e : InvalidSymbol} (hfp : ∀ q ∈ firstPad, q < i) (h : scanFrom p i firstPad padCount data = .error e) :
    e.pos < i + data.length := by
  induction data generalizing i firstPad padCount with
  | nil => cases h
  | cons c rest ih =>
    have hget : firstPad.getD i < i + 1 := by
      cases firstPad with
      | none => exact Nat.lt_succ_self i
      | some q => exact Nat.lt_succ_of_lt (hfp q rfl)
    rw [List.length_cons]
    obtain ⟨fp, k, hcase, heq⟩ | ⟨e', hpos, heq⟩ | ⟨-, v, heq⟩ := scanFrom_cons_cases p i firstPad padCount c rest
    · have hfp' : ∀ q ∈ fp, q < i + 1 := by
        rintro q hq
        rcases hcase with rfl | rfl
        · exact Nat.lt_succ_of_lt (hfp q hq)
        · cases hq; exact hget
      have := ih hfp' (heq ▸ h)
      omega
    · rw [heq] at h; cases h; omega
    · rw [heq] at h
      cases hrest : scanFrom p (i + 1) none padCount rest with
      | ok tail => rw [hrest] at h; cases h
      | error e' =>
        rw [hrest] at h
        cases h
        have := ih (by simp) hrest
        omega

/-! ### The decoded buffer -/

theorem decodeBuffer_ok_length {p : Profile} {data out : List Byte} (h : decodeBuffer p data = .ok out) :
    out.length ≤ 3 * data.length / 4 := by
  obtain ⟨e, -, heq⟩ | ⟨syms, hscan, -, heq⟩ | ⟨syms, v, q, -, -, -, heq⟩ := decodeBuffer_cases p data
  · rw [heq] at h; cases h
  · rw [heq] at h
    cases h
    obtain ⟨hlen, -⟩ := scanFrom_ok_bounds hscan
    rw [unpackSyms_length, List.length_map]
    omega
  · rw [heq] at h; cases h

theorem decodeBuffer_ok_length_le {p : Profile} {data out : List Byte} {n : Nat} (hn : data.length ≤ n)
    (h : decodeBuffer p data = .ok out) : out.length ≤ maxOutLen n := by
  have := decodeBuffer_ok_length h
  rw [maxOutLen]
  omega

/-- A decode error lies inside the input (60_exceptions R190). -/
theorem decodeBuffer_error_pos {p : Profile} {data : List Byte} {e : InvalidSymbol}
    (h : decodeBuffer p data = .error e) : e.pos < data.length := by
  obtain ⟨e', hscan, heq⟩ | ⟨syms, -, -, heq⟩ | ⟨syms, v, q, hscan, -, hlast, heq⟩ := decodeBuffer_cases p data
  · rw [heq] at h
    cases h
    simpa using scanFrom_error_pos (by simp) hscan
  · rw [heq] at h; cases h
  · rw [heq] at h
    cases h
    simpa using (scanFrom_ok_bounds hscan).2 _ (List.mem_of_getLast? hlast)

end Sys2Proof.Machine
end

section
/-! SUPPORT. What a line of the outside world does to the command that runs and to its results. -/

open Sys2Proof.Claims

namespace Sys2Proof.Machine

theorem latchedInstr_eq_dec_iff (s : State) : latchedInstr s = .dec ↔ s.latchOp = .dec := by
  unfold latchedInstr
  cases s.latchOp <;> cases s.latchVar <;> simp

/-- CMD is the register at offset 0 and at no other (10_state R22). -/
theorem offset_of_regAt_cmd {o : Nat} (h : regAt o = some .cmd) : o = 0x00 := by
  unfold regAt at h
  split at h <;> simp_all

/-- Nothing differs but the host's own side and IN_LEN: STATE, the latch, the results and both buffers stay. -/
def commandStateKept (s t : State) : Prop :=
  t = { s with
    pending := t.pending
    returned := t.returned
    endUnseen := t.endUnseen
    inLen := t.inLen }

theorem commandStateKept_refl (s : State) : commandStateKept s s := rfl

theorem commandStateKept_returnWord (w : Word) (s : State) : commandStateKept s (returnWord w s) := rfl

theorem commandStateKept_readReg (r : Reg) (s : State) : commandStateKept s (readReg r s) := by
  unfold readReg
  split <;> rfl

theorem commandStateKept_pollStatus (s : State) : commandStateKept s (pollStatus s) := by
  have h := commandStateKept_readReg .status s
  unfold commandStateKept at h ⊢
  unfold pollStatus
  split
  · rw [h]
  · exact h

/-- A register write keeps the command's state unless it is a CMD write the block does not ignore. -/
theorem writeReg_cases (r : Reg) (w : Word) (s : State) :
    commandStateKept s (writeReg r w s) ∨
    (r = .cmd ∧ s.status ≠ .busy ∧ writeReg r w s = writeCmd w s) := by
  cases r with
  | cmd =>
    by_cases hb : s.status = .busy
    · exact .inl (by simp [writeReg, writeCmd, hb, commandStateKept_refl])
    · exact .inr ⟨rfl, hb, rfl⟩
  | status | inLen | outLen | errCode | errPos | config | maxIn => exact .inl rfl

/-- What a line that answers a next state did: reset, nothing to the command's state, a CMD write that is not
ignored, or a write to IN. The last two come only where the block is not BUSY. -/
theorem performLine_cases {l : Line} {s t : State} (h : performLine l s = .next t) :
    t = resetBlock s ∨ commandStateKept s t ∨
    (∃ x w, l = .txn x ∧ x.space = .reg ∧ x.access = .write w ∧ x.offset = 0x00 ∧ s.status ≠ .busy ∧
      t = writeCmd w s) ∨
    (∃ a b, a < s.maxIn.toNat ∧ s.status ≠ .busy ∧ t = { s with inBuf := s.inBuf.write a b }) := by
  obtain ⟨-, rfl⟩ | ⟨-, rfl⟩ | ⟨x, rfl, hx⟩ := performLine_next h
  · exact .inl rfl
  · exact .inr (.inl (commandStateKept_pollStatus s))
  · obtain ⟨hwf, hcases⟩ := transact_next hx
    obtain ⟨r, -, -, -, rfl⟩ | ⟨r, w, hsp, hacc, hreg, rfl⟩ | ⟨b, -, -, -, rfl⟩ | ⟨w, hsp, -, hb, -, rfl⟩ |
      ⟨b, -, -, -, -, -, rfl⟩ | ⟨w, -, -, rfl⟩ := hcases
    · exact .inr (.inl (commandStateKept_readReg r s))
    · obtain hkept | ⟨rfl, hb, heq⟩ := writeReg_cases r w s
      · exact .inr (.inl hkept)
      · exact .inr (.inr (.inl ⟨x, w, rfl, hsp, hacc, offset_of_regAt_cmd hreg, hb, heq⟩))
    · exact .inr (.inl (commandStateKept_returnWord _ s))
    · obtain ⟨space, offset, width, acc⟩ := x
      cases hsp
      exact .inr (.inr (.inr ⟨offset, _, ((Txn.wf_inp_iff _ _ _ _).1 hwf).2, hb, rfl⟩))
    · exact .inr (.inl (commandStateKept_returnWord _ s))
    · exact .inr (.inl (commandStateKept_refl _))

/-- A fault that an access raises is a broken duty of the host, never the stuck outcome (log entry 12). -/
theorem access_ne_stuck (x : Txn) (s : State) : access x s ≠ .fault .stuck := by
  obtain ⟨space, offset, width, acc⟩ := x
  cases space <;> cases acc
  case reg.read | reg.write => simp only [access]; split <;> simp
  case inp.read => simp only [access, readIn]; split <;> simp
  case inp.write => simp only [access, writeIn]; split <;> simp
  case out.read =>
    simp only [access, readOut]
    split
    · simp
    · split
      · split <;> simp
      · simp
  case out.write => simp [access]

theorem performLine_ne_stuck (l : Line) (s : State) : performLine l s ≠ .fault .stuck := by
  cases l with
  | txn x =>
    simp only [performLine, transact]
    split
    · simp
    · exact access_ne_stuck x s
  | poll | reset => simp [performLine]

end Sys2Proof.Machine
end

section
/-! SUPPORT. Who moves (00_scope R10 to R12, 70_reset R237): the core, the outside world, or nobody. -/

open Sys2Proof.Claims

namespace Sys2Proof.Machine

theorem coreMoves_eq_false_iff (s : State) :
    coreMoves s = false ↔ s.status ≠ .busy ∨ (s.coreWait ≠ 0 ∧ s.pending ≠ []) := by
  rw [← Bool.not_eq_true, coreMoves_iff]
  tauto

/-- Where the core does not move and no line is pending, the block is not BUSY. -/
theorem not_busy_of_no_line {s : State} (hm : coreMoves s = false) (hp : s.pending = []) : s.status ≠ .busy :=
  ((coreMoves_eq_false_iff s).1 hm).resolve_right fun h => h.2 hp

/-! ### A command placed by `withFetchWord` (log entry 4) -/

theorem latchedInstr_acceptCommand (i : Instr) (s : State) : latchedInstr (acceptCommand i s) = i := by
  cases i <;> rfl

theorem latchedInstr_issueNext (i : Instr) (s : State) : latchedInstr (issueNext i s) = i :=
  latchedInstr_acceptCommand i (clearResults s)

theorem coreMoves_issueNext (i : Instr) (s : State) : coreMoves (issueNext i s) = true := rfl

theorem withFetchWord_of_decode {nbits w : Nat} {i : Instr} (s : State) (h : decodeTableWord nbits w = some i) :
    s.withFetchWord nbits w = issueNext i s := by
  simp [State.withFetchWord, h]

/-! ### The stuck outcome (log entry 12) -/

theorem exec_ne_stuck (i : Instr) (s : State) : exec i s ≠ .fault .stuck := by
  rw [exec_eq, coreStep]
  split
  · split <;> simp
  · simp

theorem step_stuck {s : State} (hb : s.status ≠ .busy) (hp : s.pending = []) : step s = .fault .stuck := by
  simp [step, coreMoves_false_of_not_busy hb, hostStep, hp]

/-! ### The obligations -/

/-- Settles O3: the core's step is the latched command's, and `withFetchWord` leaves the core to move. -/
theorem stepRunsLatchedCommand : Obligations.StepRunsLatchedCommand := by
  refine ⟨fun s hb hw => step_core ((coreMoves_iff s).2 ⟨hb, hw⟩), fun s nbits w i hd => ?_⟩
  have hl := latchedInstr_issueNext i s
  rw [withFetchWord_of_decode s hd]
  refine ⟨hl, ?_⟩
  rw [step_core (coreMoves_issueNext i s), hl]

/-- Settles O4: only the outside world with no line pending is stuck, for neither a core step nor a line is. -/
theorem stepPerformsNextLineOrIsStuck : Obligations.StepPerformsNextLineOrIsStuck := by
  refine ⟨fun s l rest hp hw => step_line ((coreMoves_eq_false_iff s).2 ?_) hp, fun s => ⟨fun h => ?_, fun h => ?_⟩⟩
  · exact hw.imp_right fun hw => ⟨hw, by simp [hp]⟩
  · cases hm : coreMoves s with
    | true =>
      rw [step_core hm] at h
      exact absurd h (exec_ne_stuck _ s)
    | false =>
      cases hp : s.pending with
      | nil => exact ⟨not_busy_of_no_line hm hp, rfl⟩
      | cons l rest =>
        rw [step_line hm hp] at h
        exact absurd h (performLine_ne_stuck l _)
  · exact step_stuck h.1 h.2

/-- Settles O5: a line either resets the block or, while BUSY, keeps the command's state, and taking it off the
pending lines lowers `coreWait`. -/
theorem coreStepComesAfterFinitelyManyLines : Obligations.CoreStepComesAfterFinitelyManyLines := by
  intro s t hb hm h
  obtain ⟨hm', -⟩ | ⟨-, l, rest, -, hl⟩ := step_next h
  · simp [hm] at hm'
  · have hwait : s.coreWait ≠ 0 := (((coreMoves_eq_false_iff s).1 hm).resolve_left (by simp [hb])).1
    obtain rfl | hkept | ⟨_, _, -, -, -, -, hnb, -⟩ | ⟨_, _, -, hnb, -⟩ := performLine_cases hl
    · exact .inl rfl
    · rw [hkept]
      exact .inr ⟨hb, rfl, rfl, Nat.sub_one_lt hwait⟩
    · exact absurd hb hnb
    · exact absurd hb hnb

end Sys2Proof.Machine
end

section
/-! SUPPORT. The invariant is kept by every step, and a host that keeps its duties is never stopped (70_reset R230 to
R233). -/

open Sys2Proof.Claims

namespace Sys2Proof.Machine

/-! ### The results of a BUSY block and of one that ended in OK -/

theorem resultsFit_busy_iff {s : State} (hb : s.status = .busy) :
    resultsFit s ↔
      s.errCode = 0#8 ∧ s.errPos = 0#32 ∧ s.outLen = 0#32 ∧ s.outBuf = [] ∧ s.latchLen ≤ s.maxIn := by
  simp only [resultsFit, hb]

theorem resultsFit_ok_iff {s : State} (hok : s.status = .ok) :
    resultsFit s ↔
      s.errCode = 0#8 ∧ s.errPos = 0#32 ∧ s.outLen.toNat ≤ maxOutLen s.maxIn.toNat ∧
        ∀ j, s.outBuf.read j ≠ none ↔ j < s.outLen.toNat := by
  simp only [resultsFit, hok]

/-- `OUT_LEN` is wide enough for every output, however large `MAX_IN_LEN` is (00_scope R7). -/
theorem maxOutLen_lt_two_pow {n : Nat} (h : n ≤ Config.maxInLenBound) : maxOutLen n < 2 ^ 32 := by
  simp only [Config.maxInLenBound, maxOutLen] at *
  omega

/-! ### Each way a state can change keeps the invariant -/

namespace MachineInv

theorem afterTake {s : State} (h : MachineInv s) (rest : List Line) : MachineInv (afterTake s rest) :=
  ⟨h.inWf, h.outWf, h.inBound, h.maxBound, h.results⟩

theorem of_commandStateKept {s t : State} (h : MachineInv s) (hkept : commandStateKept s t) : MachineInv t := by
  rw [hkept]
  exact ⟨h.inWf, h.outWf, h.inBound, h.maxBound, h.results⟩

theorem resetBlock {s : State} (h : MachineInv s) : MachineInv (resetBlock s) :=
  ⟨rfl, rfl, fun _ hi => absurd rfl hi, h.maxBound, rfl, rfl, rfl, rfl⟩

theorem raiseCommandRejected {s : State} (h : MachineInv s) {r : Byte} (hr : r = reasonReserved ∨ r = reasonLength) :
    MachineInv (raiseCommandRejected r (clearResults s)) :=
  ⟨h.inWf, rfl, h.inBound, h.maxBound, hr, rfl, rfl, rfl⟩

theorem acceptCommand {s : State} (h : MachineInv s) (hlen : s.inLen ≤ s.maxIn) (i : Instr) :
    MachineInv (acceptCommand i (clearResults s)) :=
  ⟨h.inWf, rfl, h.inBound, h.maxBound, rfl, rfl, rfl, rfl, hlen⟩

theorem writeCmd {s : State} (h : MachineInv s) (w : Word) : MachineInv (writeCmd w s) := by
  obtain ⟨-, heq⟩ | ⟨-, -, heq⟩ | ⟨-, -, -, heq⟩ | ⟨-, hlen, i, -, heq⟩ := writeCmd_cases w s <;> rw [heq]
  · exact h
  · exact h.raiseCommandRejected (.inl rfl)
  · exact h.raiseCommandRejected (.inr rfl)
  · exact h.acceptCommand hlen i

theorem writeInBuf {s : State} (h : MachineInv s) {a : Nat} (ha : a < s.maxIn.toNat) (b : Byte) :
    MachineInv { s with inBuf := s.inBuf.write a b } := by
  refine ⟨Memory.write_wf h.inWf a b, h.outWf, fun i hi => ?_, h.maxBound, h.results⟩
  by_cases hia : a = i
  · exact hia ▸ ha
  · exact h.inBound i (Memory.read_write_other s.inBuf hia b ▸ hi)

/-- OUT is empty while BUSY, so after the command it holds exactly the output. -/
theorem completeOk {s : State} (h : MachineInv s) (hb : s.status = .busy) {out : List Byte}
    (hout : out.length ≤ maxOutLen s.maxIn.toNat) : MachineInv (completeOk out s) := by
  obtain ⟨-, -, -, hempty, -⟩ := (resultsFit_busy_iff hb).1 h.results
  have hlen : (BitVec.ofNat 32 out.length).toNat = out.length :=
    (BitVec.toNat_ofNat _ _).trans <| Nat.mod_eq_of_lt (hout.trans_lt (maxOutLen_lt_two_pow h.maxBound))
  refine ⟨h.inWf, Memory.writeBytes_wf h.outWf 0 out, h.inBound, h.maxBound, (resultsFit_ok_iff rfl).2 ?_⟩
  simp only [completeOk_outLen, hlen]
  refine ⟨rfl, rfl, hout, fun j => ?_⟩
  simp [hempty, Memory.read_writeBytes]

theorem raiseInvalidSymbol {s : State} (h : MachineInv s) (hop : s.latchOp = .dec) {e : InvalidSymbol}
    (hpos : e.pos < s.latchLen.toNat) : MachineInv (raiseInvalidSymbol e s) := by
  refine ⟨h.inWf, rfl, h.inBound, h.maxBound, hop, ?_, rfl, rfl⟩
  show BitVec.ofNat 32 e.pos < s.latchLen
  rw [BitVec.lt_def, BitVec.toNat_ofNat]
  exact (Nat.mod_le _ _).trans_lt hpos

/-- The core step keeps the invariant: the output fits OUT, and an error lies inside the input. -/
theorem finish {s : State} (h : MachineInv s) (hb : s.status = .busy) {data : List Byte}
    (hin : inputIs s s.latchLen.toNat data) : MachineInv (finish (latchedInstr s) data s) := by
  obtain ⟨-, -, -, -, hle⟩ := (resultsFit_busy_iff hb).1 h.results
  obtain ⟨hlen, -⟩ := hin
  have hfits : data.length ≤ s.maxIn.toNat := hlen ▸ BitVec.le_def.1 hle
  obtain ⟨out, heq, hout⟩ | ⟨hdec, e, herr, heq⟩ := finish_cases (latchedInstr s) data s <;> rw [heq]
  · refine h.completeOk hb ?_
    obtain ⟨var, rfl⟩ | hout := hout
    · exact encodeBuffer_length_le var hfits
    · exact decodeBuffer_ok_length_le hfits hout
  · exact h.raiseInvalidSymbol ((latchedInstr_eq_dec_iff s).1 hdec) (hlen ▸ decodeBuffer_error_pos herr)

theorem performLine {l : Line} {s t : State} (h : MachineInv s) (hl : performLine l s = .next t) : MachineInv t := by
  obtain rfl | hkept | ⟨_, w, -, -, -, -, -, rfl⟩ | ⟨a, b, ha, -, rfl⟩ := performLine_cases hl
  · exact h.resetBlock
  · exact h.of_commandStateKept hkept
  · exact h.writeCmd w
  · exact h.writeInBuf ha b

/-- Every step keeps the invariant. -/
theorem step {s t : State} (h : MachineInv s) (hs : step s = .next t) : MachineInv t := by
  obtain ⟨-, hb, data, hin, rfl⟩ | ⟨-, l, rest, -, hl⟩ := step_next hs
  · exact h.finish hb hin
  · exact (h.afterTake rest).performLine hl

end MachineInv

/-! ### The input of the running command stays written -/

theorem inputReady_of_not_busy {s : State} (h : s.status ≠ .busy) : inputReady s := fun hb => absurd hb h

theorem finish_status_ne_busy (i : Instr) (data : List Byte) (s : State) : (finish i data s).status ≠ .busy := by
  obtain ⟨out, heq, -⟩ | ⟨-, e, -, heq⟩ := finish_cases i data s <;> simp [heq]

/-- A CMD write that keeps the duty of R232 is accepted only with its input written. -/
theorem inputReady_writeCmd {s : State} (hb : s.status ≠ .busy) {w : Word}
    (hduty : (∃ i, decodeWord w = .ok i) → s.inLen ≤ s.maxIn → inputWritten s s.inLen.toNat) :
    inputReady (writeCmd w s) := by
  obtain ⟨hb', -⟩ | ⟨-, -, heq⟩ | ⟨-, -, -, heq⟩ | ⟨-, hlen, i, hd, heq⟩ := writeCmd_cases w s
  · exact absurd hb' hb
  · rw [heq]; exact inputReady_of_not_busy (by simp)
  · rw [heq]; exact inputReady_of_not_busy (by simp)
  · rw [heq]; exact fun _ => hduty ⟨i, hd⟩ hlen

theorem inputReady_performLine {l : Line} {s t : State} (hin : inputReady s) (hsafe : lineSafe l s)
    (hl : performLine l s = .next t) : inputReady t := by
  obtain rfl | hkept | ⟨x, w, rfl, hsp, hacc, hoff, hb, rfl⟩ | ⟨a, b, -, hb, rfl⟩ := performLine_cases hl
  · exact inputReady_of_not_busy (by simp)
  · rw [hkept]; exact hin
  · obtain ⟨-, hduty⟩ := hsafe
    simp only [keepsDuty, hsp, hacc] at hduty
    exact inputReady_writeCmd hb (hduty hoff hb)
  · exact inputReady_of_not_busy hb

/-! ### Neither the core nor a safe line stops the machine -/

theorem step_core_completes {s : State} (hin : inputReady s) (hm : coreMoves s = true) :
    ∃ data, step s = .next (finish (latchedInstr s) data s) := by
  obtain ⟨hb, -⟩ := (coreMoves_iff s).1 hm
  obtain ⟨data, hdata⟩ := exists_inputIs (hin hb)
  exact ⟨data, by rw [step_core hm, exec_eq, coreStep_of_input hb rfl hdata]⟩

/-- A transaction of a legal shape that keeps the host's duty answers a next state. -/
theorem access_of_keepsDuty {x : Txn} {s : State} (h : MachineInv s) (hwf : x.wf s.maxIn.toNat = true)
    (hduty : keepsDuty x s) : ∃ t, access x s = .next t := by
  obtain ⟨space, offset, width, acc⟩ := x
  cases space with
  | reg =>
    obtain ⟨⟨-, hal⟩, hlt⟩ := (Txn.wf_reg_iff _ _ _ _).1 hwf
    obtain ⟨r, hr⟩ := regAt_of_legal hal hlt
    cases acc <;> exact ⟨_, by simp only [access, hr]; rfl⟩
  | inp =>
    cases acc with
    | read =>
      obtain ⟨b, hb⟩ := Option.ne_none_iff_exists'.1 hduty
      exact ⟨_, by simp only [access, readIn, hb]; rfl⟩
    | write w =>
      obtain ⟨hb, hseen⟩ := hduty
      exact ⟨_, by simp only [access, writeIn, hb, hseen]; rfl⟩
  | out =>
    cases acc with
    | read =>
      obtain ⟨hok, hlt⟩ := hduty
      obtain ⟨-, -, -, hread⟩ := (resultsFit_ok_iff hok).1 h.results
      obtain ⟨b, hb⟩ := Option.ne_none_iff_exists'.1 ((hread offset).2 hlt)
      exact ⟨_, by simp only [access, readOut, hok, hlt, hb]; rfl⟩
    | write w => exact ⟨s, rfl⟩

theorem performLine_of_lineSafe {l : Line} {s : State} (h : MachineInv s) (hsafe : lineSafe l s) :
    ∃ t, performLine l s = .next t := by
  cases l with
  | txn x =>
    obtain ⟨hwf, hduty⟩ := hsafe
    obtain ⟨t, ht⟩ := access_of_keepsDuty h hwf hduty
    exact ⟨t, (transact_of_wf hwf).trans ht⟩
  | poll | reset => exact ⟨_, rfl⟩

/-- The host's duties do not speak of the lines still to come. -/
theorem lineSafe_afterTake {l : Line} {s : State} (h : lineSafe l s) (rest : List Line) :
    lineSafe l (afterTake s rest) := h

/-! ### The obligation -/

/-- Settles O35: the core's input is written and a safe line has a meaning, so some next state is answered; every step
keeps the invariant, and a safe CMD write starts a command only over written input. -/
theorem dutifulHostIsNeverStopped : Obligations.DutifulHostIsNeverStopped := by
  intro s hinv hin hmove hsafe
  cases hm : coreMoves s with
  | true =>
    obtain ⟨data, hs⟩ := step_core_completes hin hm
    exact ⟨_, hs, hinv.step hs, inputReady_of_not_busy (finish_status_ne_busy _ _ _)⟩
  | false =>
    cases hp : s.pending with
    | nil => exact absurd (hmove.resolve_right (not_not_intro hp)) (not_busy_of_no_line hm hp)
    | cons l rest =>
      have hsafe' := lineSafe_afterTake (hsafe hm l (by simp [hp])) rest
      obtain ⟨t, ht⟩ := performLine_of_lineSafe (hinv.afterTake rest) hsafe'
      have hs : step s = .next t := (step_line hm hp).trans ht
      exact ⟨t, hs, hinv.step hs, inputReady_performLine (s := afterTake s rest) hin hsafe' ht⟩

end Sys2Proof.Machine
end

section
/-! SUPPORT. What each core step, line and step leaves of the registers, the latch and the buffers (10_state R22 to
R37). -/

open Sys2Proof.Claims

namespace Sys2Proof.Machine

/-! ### The registers' offsets (10_state R22) -/

/-- The offset of each register (10_state R22), the inverse of `regAt`. -/
def Reg.offset : Reg → Nat
  | .cmd => 0x00
  | .status => 0x04
  | .inLen => 0x08
  | .outLen => 0x0C
  | .errCode => 0x10
  | .errPos => 0x14
  | .config => 0x18
  | .maxIn => 0x1C

theorem regAt_eq_some_iff (o : Nat) (r : Reg) : regAt o = some r ↔ o = r.offset := by
  constructor
  · intro h
    unfold regAt at h
    split at h <;> cases h <;> rfl
  · rintro rfl
    cases r <;> rfl

theorem Reg.offset_legal (r : Reg) : r.offset % 4 = 0 ∧ r.offset < 0x20 := by
  cases r <;> decide

/-! ### A line with a transaction of a legal shape -/

theorem step_txn {s : State} {x : Txn} {rest : List Line} (h : hostTurn s (.txn x) rest)
    (hwf : x.wf s.maxIn.toNat = true) : step s = access x (afterTake s rest) :=
  (step_line h.1 h.2).trans (transact_of_wf hwf)

theorem step_reg {s : State} (r : Reg) {acc : Access} {rest : List Line}
    (h : hostTurn s (.txn ⟨.reg, r.offset, 32, acc⟩) rest) :
    step s = access ⟨.reg, r.offset, 32, acc⟩ (afterTake s rest) := by
  obtain ⟨h4, hlt⟩ := r.offset_legal
  exact step_txn h ((Txn.wf_reg_iff _ _ _ _).2 ⟨⟨rfl, h4⟩, hlt⟩)

theorem step_rd {s : State} (r : Reg) {rest : List Line} (h : hostTurn s (Line.rd r.offset) rest) :
    step s = .next (readReg r (afterTake s rest)) := by
  rw [step_reg r h]
  simp only [access, (regAt_eq_some_iff _ r).2 rfl]

theorem step_wr {s : State} (r : Reg) {w : Word} {rest : List Line} (h : hostTurn s (Line.wr r.offset w) rest) :
    step s = .next (writeReg r w (afterTake s rest)) := by
  rw [step_reg r h]
  simp only [access, (regAt_eq_some_iff _ r).2 rfl]

/-- A register read gives the host the register's word and changes nothing of the block (20_memory R60). -/
theorem onlyHostLearns_readReg (r : Reg) (s : State) (rest : List Line) :
    onlyHostLearns s (readReg r (afterTake s rest)) rest (regWord r s) := by
  unfold onlyHostLearns readReg
  cases r <;> split <;> rfl

theorem errCodeWord_toNat (s : State) : (errCodeWord s).toNat = s.errCode.toNat :=
  BitVec.toNat_setWidth_of_le (by decide)

theorem readReg_inLen (r : Reg) (s : State) : (readReg r s).inLen = s.inLen := by
  unfold readReg
  split <;> rfl

theorem pollStatus_inLen (s : State) : (pollStatus s).inLen = s.inLen := by
  unfold pollStatus
  split <;> exact readReg_inLen .status s

/-! ### How a core step ends -/

theorem endsOk_completeOk (out : List Byte) (s : State) : endsOk out s (completeOk out s) := by
  refine ⟨rfl, rfl, rfl, rfl, fun j hj => ?_, fun j hj => ?_, rfl⟩
  · simp [Memory.read_writeBytes, hj]
  · simp [Memory.read_writeBytes, Nat.not_lt.2 hj]

theorem endsInvalidSymbol_raiseInvalidSymbol (e : InvalidSymbol) (s : State) :
    endsInvalidSymbol e s (raiseInvalidSymbol e s) :=
  ⟨rfl, rfl, rfl, rfl, fun _ => rfl, rfl⟩

theorem finish_dec_of_ok {data out : List Byte} {s : State} (h : decodeBuffer s.profile data = .ok out) :
    finish .dec data s = completeOk out s := by
  simp [finish, finishDec, h]

theorem finish_dec_of_error {data : List Byte} {e : InvalidSymbol} {s : State}
    (h : decodeBuffer s.profile data = .error e) : finish .dec data s = raiseInvalidSymbol e s := by
  simp [finish, finishDec, h]

theorem finish_onlyResultsChange (i : Instr) (data : List Byte) (s : State) :
    onlyResultsChange s (finish i data s) := by
  obtain ⟨out, heq, -⟩ | ⟨-, e, -, heq⟩ := finish_cases i data s <;> rw [heq] <;> rfl

/-! ### A CMD write keeps the constants, IN_LEN and IN -/

theorem writeCmd_frame (w : Word) (s : State) :
    (writeCmd w s).inLen = s.inLen ∧ (writeCmd w s).profile = s.profile ∧ (writeCmd w s).maxIn = s.maxIn ∧
      (writeCmd w s).inBuf = s.inBuf := by
  obtain ⟨-, heq⟩ | ⟨-, -, heq⟩ | ⟨-, -, -, heq⟩ | ⟨-, -, i, -, heq⟩ := writeCmd_cases w s <;> simp [heq]

/-- A CMD write that is not ignored starts a command or is rejected, and in both cases empties OUT (30_encoding
R75). -/
theorem writeCmd_of_not_busy {s : State} (hb : s.status ≠ .busy) (w : Word) :
    ((writeCmd w s).status = .busy ∨ (writeCmd w s).status = .rejected) ∧ (writeCmd w s).outBuf = [] := by
  obtain ⟨hb', -⟩ | ⟨-, -, heq⟩ | ⟨-, -, -, heq⟩ | ⟨-, -, i, -, heq⟩ := writeCmd_cases w s
  · exact absurd hb' hb
  all_goals simp [heq]

/-- A CMD write that is not ignored leaves the latch as it was, or latches the command of its word with IN_LEN
(30_encoding R75). -/
theorem writeCmd_latch {s : State} (hb : s.status ≠ .busy) (w : Word) :
    ((writeCmd w s).latchOp = s.latchOp ∧ (writeCmd w s).latchVar = s.latchVar ∧
      (writeCmd w s).latchLen = s.latchLen) ∨
    ((writeCmd w s).status = .busy ∧ (writeCmd w s).latchLen = s.inLen ∧ s.inLen ≤ s.maxIn ∧
      decodeWord w = .ok (latchedInstr (writeCmd w s))) := by
  obtain ⟨hb', -⟩ | ⟨-, -, heq⟩ | ⟨-, -, -, heq⟩ | ⟨-, hlen, i, hd, heq⟩ := writeCmd_cases w s
  · exact absurd hb' hb
  · exact .inl (by simp [heq])
  · exact .inl (by simp [heq])
  · exact .inr (by simp [heq, hlen, hd, latchedInstr_acceptCommand])

/-! ### Every way a state can change -/

/-- What a step can do: the core's step, or one of the five effects of a line. -/
inductive StepEffect (s : State) : State → Prop where
  /-- The core performs the latched command over its whole input (00_scope R10). -/
  | core (data : List Byte) (hm : coreMoves s = true) (hb : s.status = .busy)
      (hin : inputIs s s.latchLen.toNat data) : StepEffect s (finish (latchedInstr s) data s)
  /-- The reset input (70_reset R220). -/
  | reset (rest : List Line) (h : hostTurn s .reset rest) : StepEffect s (resetBlock (afterTake s rest))
  /-- A line that changes nothing but the host's own side: a read, `poll`, an ignored write. -/
  | hostSide (t : State) (rest : List Line) (hm : coreMoves s = false)
      (hkept : commandStateKept (afterTake s rest) t) (hlen : t.inLen = s.inLen) : StepEffect s t
  /-- A write to IN_LEN (10_state R25). -/
  | inLenWrite (w : Word) (rest : List Line) (h : hostTurn s (Line.wr 0x08 w) rest) :
      StepEffect s { afterTake s rest with inLen := w }
  /-- A CMD write that is not ignored (30_encoding R75). -/
  | cmdWrite (w : Word) (rest : List Line) (h : hostTurn s (Line.wr 0x00 w) rest) (hb : s.status ≠ .busy) :
      StepEffect s (writeCmd w (afterTake s rest))
  /-- A write to IN outside a command's window (20_memory R52, 70_reset R230; log entry 9). -/
  | inWrite (k : Nat) (w : Word) (rest : List Line) (h : hostTurn s (.txn ⟨.inp, k, 8, .write w⟩) rest)
      (hk : k < s.maxIn.toNat) (hb : s.status ≠ .busy) (hseen : s.endUnseen = false) :
      StepEffect s { afterTake s rest with inBuf := s.inBuf.write k (w.setWidth 8) }

theorem stepEffect_of_wr {s : State} (r : Reg) (w : Word) {rest : List Line}
    (h : hostTurn s (Line.wr r.offset w) rest) : StepEffect s (writeReg r w (afterTake s rest)) := by
  cases r with
  | cmd =>
    obtain hkept | ⟨-, hb, heq⟩ := writeReg_cases .cmd w (afterTake s rest)
    · exact .hostSide _ rest h.1 hkept (writeCmd_frame w (afterTake s rest)).1
    · exact heq ▸ .cmdWrite w rest h hb
  | inLen => exact .inLenWrite w rest h
  | status | outLen | errCode | errPos | config | maxIn =>
    exact .hostSide _ rest h.1 (commandStateKept_refl _) rfl

theorem stepEffect_of_transact {s t : State} {x : Txn} {rest : List Line} (h : hostTurn s (.txn x) rest)
    (hx : transact x (afterTake s rest) = .next t) : StepEffect s t := by
  obtain ⟨hwf, hcases⟩ := transact_next hx
  obtain ⟨space, offset, width, acc⟩ := x
  obtain ⟨r, -, -, -, rfl⟩ | ⟨r, w, rfl, rfl, hreg, rfl⟩ | ⟨b, -, -, -, rfl⟩ | ⟨w, rfl, rfl, hb, hseen, rfl⟩ |
    ⟨b, -, -, -, -, -, rfl⟩ | ⟨w, -, -, rfl⟩ := hcases
  · exact .hostSide _ rest h.1 (commandStateKept_readReg r _) (readReg_inLen r _)
  · obtain ⟨⟨rfl, -⟩, -⟩ := (Txn.wf_reg_iff _ _ _ _).1 hwf
    obtain rfl := (regAt_eq_some_iff _ _).1 hreg
    exact stepEffect_of_wr r w h
  · exact .hostSide _ rest h.1 (commandStateKept_returnWord _ _) rfl
  · obtain ⟨rfl, hk⟩ := (Txn.wf_inp_iff _ _ _ _).1 hwf
    exact .inWrite offset w rest h hk hb hseen
  · exact .hostSide _ rest h.1 (commandStateKept_returnWord _ _) rfl
  · exact .hostSide _ rest h.1 (commandStateKept_refl _) rfl

theorem stepEffect_of_step {s t : State} (h : step s = .next t) : StepEffect s t := by
  obtain ⟨hm, hb, data, hin, rfl⟩ | ⟨hm, l, rest, hp, hl⟩ := step_next h
  · exact .core data hm hb hin
  · obtain ⟨rfl, rfl⟩ | ⟨rfl, rfl⟩ | ⟨x, rfl, hx⟩ := performLine_next hl
    · exact .reset rest ⟨hm, hp⟩
    · exact .hostSide _ rest hm (commandStateKept_pollStatus _) (pollStatus_inLen _)
    · exact stepEffect_of_transact ⟨hm, hp⟩ hx

/-! ### The obligations -/

/-- Settles O34: the core's end and every line keep the invariant. -/
theorem stepKeepsInvariant : Obligations.StepKeepsInvariant :=
  fun _ _ hinv h => hinv.step h

/-- Settles O10: a core step that answers was enabled over written input and ended as `finish` says. -/
theorem coreStepFrame : Obligations.CoreStepFrame := by
  intro i s t h
  rw [exec_eq] at h
  obtain ⟨-, -, data, hin, rfl⟩ := coreStep_next h
  refine ⟨data, hin, ?_⟩
  cases i with
  | encStd | encUrl => exact endsOk_completeOk _ s
  | dec =>
    cases hd : decodeBuffer s.profile data with
    | ok out => rw [finish_dec_of_ok hd]; exact endsOk_completeOk out s
    | error e => rw [finish_dec_of_error hd]; exact endsInvalidSymbol_raiseInvalidSymbol e s

/-- Settles O18: of all effects of a step only a write to IN_LEN and reset touch IN_LEN. -/
theorem inLenHoldsTheLastWrite : Obligations.InLenHoldsTheLastWrite := by
  refine ⟨fun s w rest h => step_wr .inLen h, fun s t h hne => ?_⟩
  cases stepEffect_of_step h with
  | core data => exact absurd (congrArg State.inLen (finish_onlyResultsChange _ data s)) hne
  | reset rest hturn => exact ⟨hturn.1, .inr ⟨rest, hturn.2, rfl⟩⟩
  | hostSide _ rest hm hkept hlen => exact absurd hlen hne
  | inLenWrite w rest hturn => exact ⟨hturn.1, .inl ⟨rest, hturn.2⟩⟩
  | cmdWrite w rest => exact absurd (writeCmd_frame w (afterTake s rest)).1 hne
  | inWrite => exact absurd rfl hne

/-- Settles O19: each effect of a step that moves STATE is one edge of the table. -/
theorem statusMovesOnlyAlongItsEdges : Obligations.StatusMovesOnlyAlongItsEdges := by
  intro s t h hne
  cases stepEffect_of_step h with
  | core data hm hb =>
    refine .inr (.inr ⟨hb, hm, ?_⟩)
    obtain ⟨out, heq, -⟩ | ⟨hdec, e, -, heq⟩ := finish_cases (latchedInstr s) data s
    · exact .inl (by rw [heq]; rfl)
    · exact .inr ⟨by rw [heq]; rfl, hdec⟩
  | reset rest hturn => exact .inl ⟨rfl, hturn.1, by rw [hturn.2]; rfl⟩
  | hostSide _ rest hm hkept => exact absurd (congrArg State.status hkept) hne
  | inLenWrite => exact absurd rfl hne
  | cmdWrite w rest hturn hb =>
    exact .inr (.inl ⟨hb, (writeCmd_of_not_busy (s := afterTake s rest) hb w).1, w, rest, hturn.2⟩)
  | inWrite => exact absurd rfl hne

/-- Settles O20: no effect of a step touches the constants, reset included. -/
theorem instanceConstantsNeverChange : Obligations.InstanceConstantsNeverChange := by
  intro s t h
  cases stepEffect_of_step h with
  | core data => rw [finish_onlyResultsChange (latchedInstr s) data s]; exact ⟨rfl, rfl⟩
  | hostSide _ rest hm hkept => rw [hkept]; exact ⟨rfl, rfl⟩
  | cmdWrite w rest =>
    obtain ⟨-, hprofile, hmax, -⟩ := writeCmd_frame w (afterTake s rest)
    exact ⟨hprofile, hmax⟩
  | reset | inLenWrite | inWrite => exact ⟨rfl, rfl⟩

/-- Settles O22: apart from reset only an accepted CMD write touches the latch. -/
theorem latchChangesOnlyAtAcceptance : Obligations.LatchChangesOnlyAtAcceptance := by
  intro s t h hne
  have hchange : ¬ (t.latchOp = s.latchOp ∧ t.latchVar = s.latchVar ∧ t.latchLen = s.latchLen) := by tauto
  cases stepEffect_of_step h with
  | core data =>
    rw [finish_onlyResultsChange (latchedInstr s) data s] at hchange
    exact absurd ⟨rfl, rfl, rfl⟩ hchange
  | reset rest hturn => exact .inl (by rw [hturn.2]; rfl)
  | hostSide _ rest hm hkept =>
    rw [hkept] at hchange
    exact absurd ⟨rfl, rfl, rfl⟩ hchange
  | cmdWrite w rest hturn hb =>
    obtain hsame | ⟨hbusy, hlatch, hle, hd⟩ := writeCmd_latch (s := afterTake s rest) hb w
    · exact absurd hsame hchange
    · exact .inr ⟨hb, hbusy, hlatch, hle, w, rest, hturn.2, hd⟩
  | inLenWrite | inWrite => exact absurd ⟨rfl, rfl, rfl⟩ hchange

/-- Settles O26: of all effects of a step only a write to IN and reset touch IN, and a write changes one index. -/
theorem inChangesOnlyByHostWriteOrReset : Obligations.InChangesOnlyByHostWriteOrReset := by
  intro s t k h hne
  have hchange : t.inBuf ≠ s.inBuf := fun heq => hne (by rw [heq])
  cases stepEffect_of_step h with
  | core data => exact absurd (congrArg State.inBuf (finish_onlyResultsChange _ data s)) hchange
  | reset rest hturn => exact ⟨hturn.1, .inl ⟨by rw [hturn.2]; rfl, rfl⟩⟩
  | hostSide _ rest hm hkept => exact absurd (congrArg State.inBuf hkept) hchange
  | inLenWrite => exact absurd rfl hchange
  | cmdWrite w rest =>
    obtain ⟨-, -, -, hin⟩ := writeCmd_frame w (afterTake s rest)
    exact absurd hin hchange
  | inWrite a w rest hturn ha hb hseen =>
    obtain rfl : a = k := by
      by_contra hak
      exact hne (Memory.read_write_other s.inBuf hak _)
    exact ⟨hturn.1, .inr ⟨hb, hseen, ha, w, rest, hturn.2, Memory.read_write_same s.inBuf a _⟩⟩

/-- Settles O27: OUT is empty while BUSY, so a core step that ends in OK can only give bytes a value, and the
invariant of the next state says which; every other effect that touches OUT empties it. -/
theorem outChangesOnlyByCoreOrLosesItsValue : Obligations.OutChangesOnlyByCoreOrLosesItsValue := by
  intro s t j hinv h hne
  have hinv' := hinv.step h
  have hchange : t.outBuf ≠ s.outBuf := fun heq => hne (by rw [heq])
  cases stepEffect_of_step h with
  | core data hm hb =>
    obtain ⟨-, -, -, hempty, -⟩ := (resultsFit_busy_iff hb).1 hinv.results
    obtain ⟨out, heq, -⟩ | ⟨-, e, -, heq⟩ := finish_cases (latchedInstr s) data s <;> rw [heq] at hne hinv' ⊢
    · have hvalue : (completeOk out s).outBuf.read j ≠ none := fun hnone => hne (by rw [hnone, hempty]; rfl)
      obtain ⟨-, -, -, hread⟩ := (resultsFit_ok_iff (completeOk_status out s)).1 hinv'.results
      exact .inl ⟨hm, rfl, (hread j).1 hvalue, hvalue⟩
    · exact .inr ⟨rfl, .inl ⟨hm, rfl⟩⟩
  | reset rest hturn => exact .inr ⟨rfl, .inr (.inl (by rw [hturn.2]; rfl))⟩
  | hostSide _ rest hm hkept => exact absurd (congrArg State.outBuf hkept) hchange
  | cmdWrite w rest hturn hb =>
    obtain ⟨-, hout⟩ := writeCmd_of_not_busy (s := afterTake s rest) hb w
    exact .inr ⟨by rw [hout]; rfl, .inr (.inr ⟨hb, w, rest, hturn.2⟩)⟩
  | inLenWrite | inWrite => exact absurd rfl hchange

/-- Settles O15: the register at the offset is read, and its word is that of the register's clause. -/
theorem registerReadsReturnTheirWords : Obligations.RegisterReadsReturnTheirWords := by
  intro s o rest h h4 hlt
  obtain ⟨r, hr⟩ := regAt_of_legal h4 hlt
  obtain rfl := (regAt_eq_some_iff o r).1 hr
  refine ⟨_, regWord r s, step_rd r h, onlyHostLearns_readReg r s rest, ?_⟩
  cases r with
  | cmd | inLen | outLen | errPos | maxIn => simp [Reg.offset, regWord]
  | status => cases hst : s.status <;> simp [Reg.offset, regWord, statusWord, RunState.code, hst]
  | errCode => simp [Reg.offset, regWord, errCodeWord_toNat]
  | config => cases hpr : s.profile <;> simp [Reg.offset, regWord, configWord, hpr]

/-- Settles O17: `writeReg` answers the same state for each read-only register, and `access` for OUT. -/
theorem ignoredWritesChangeNothing : Obligations.IgnoredWritesChangeNothing := by
  intro s rest w
  refine ⟨?_, fun j hj h => step_txn h ((Txn.wf_out_iff _ _ _ _).2 ⟨rfl, hj⟩)⟩
  simp only [List.forall_mem_cons]
  exact ⟨step_wr .status, step_wr .outLen, step_wr .errCode, step_wr .errPos, step_wr .config, step_wr .maxIn,
    List.forall_mem_nil _⟩

end Sys2Proof.Machine
end

section
/-! SUPPORT. The buses' rules (20_memory): what a byte access of IN and OUT answers, which transactions are refused,
what a read and a line that is no command leave as it was. -/

open Sys2Proof.Claims

namespace Sys2Proof.Machine

theorem hostTurn_of_not_busy {s : State} {l : Line} {rest : List Line} (hb : s.status ≠ .busy)
    (hp : s.pending = l :: rest) : hostTurn s l rest :=
  ⟨coreMoves_false_of_not_busy hb, hp⟩

/-! ### Byte accesses of IN and OUT (20_memory R52, R53) -/

/-- The byte an 8-bit write carries is the one the host meant (log entry 15). -/
theorem setWidth_zext32 (b : Byte) : (zext32 b).setWidth 8 = b :=
  BitVec.setWidth_setWidth_of_le b (by decide)

theorem step_wrin {s : State} {i : Nat} {b : Byte} {rest : List Line} (h : hostTurn s (Line.wrin i b) rest)
    (hi : i < s.maxIn.toNat) : step s = writeIn i b (afterTake s rest) := by
  rw [step_txn h ((Txn.wf_inp_iff _ _ _ _).2 ⟨rfl, hi⟩)]
  simp only [access, setWidth_zext32]

theorem step_rdin {s : State} {i : Nat} {rest : List Line} (h : hostTurn s (Line.rdin i) rest)
    (hi : i < s.maxIn.toNat) : step s = readIn i (afterTake s rest) :=
  step_txn h ((Txn.wf_inp_iff _ _ _ _).2 ⟨rfl, hi⟩)

theorem step_rdout {s : State} {j : Nat} {rest : List Line} (h : hostTurn s (Line.rdout j) rest)
    (hj : j < maxOutLen s.maxIn.toNat) : step s = readOut j (afterTake s rest) :=
  step_txn h ((Txn.wf_out_iff _ _ _ _).2 ⟨rfl, hj⟩)

theorem writeIn_of_window_closed {s : State} (hb : s.status ≠ .busy) (hseen : s.endUnseen = false) (i : Nat)
    (b : Byte) : writeIn i b s = .next { s with inBuf := s.inBuf.write i b } := by
  simp [writeIn, hb, hseen]

theorem readIn_of_value {s : State} {i : Nat} {b : Byte} (h : s.inBuf.read i = some b) :
    readIn i s = .next (returnWord (zext32 b) s) := by
  simp only [readIn, h]

theorem readOut_of_value {s : State} {j : Nat} {b : Byte} (hok : s.status = .ok) (hj : j < s.outLen.toNat)
    (h : s.outBuf.read j = some b) : readOut j s = .next (returnWord (zext32 b) s) := by
  simp [readOut, hok, hj, h]

/-! ### What is refused (20_memory R61) -/

/-- Once the shape is legal no access is refused: the register exists, and the buffers' duties only fault. -/
theorem access_ne_refused {x : Txn} {s : State} (hwf : x.wf s.maxIn.toNat = true) (r : Refusal) :
    access x s ≠ .refused r := by
  obtain ⟨space, offset, width, acc⟩ := x
  cases space with
  | reg =>
    obtain ⟨⟨-, hal⟩, hlt⟩ := (Txn.wf_reg_iff _ _ _ _).1 hwf
    obtain ⟨q, hq⟩ := regAt_of_legal hal hlt
    cases acc <;> simp [access, hq]
  | inp =>
    cases acc with
    | read => simp only [access, readIn]; split <;> simp
    | write w => simp only [access, writeIn]; split <;> simp
  | out =>
    cases acc with
    | read =>
      simp only [access, readOut]
      split
      · simp
      · split
        · split <;> simp
        · simp
    | write w => simp [access]

theorem transact_refused_iff (x : Txn) (s : State) :
    (∃ r, transact x s = .refused r) ↔ ¬ x.wf s.maxIn.toNat = true := by
  constructor
  · rintro ⟨r, hr⟩ hwf
    rw [transact_of_wf hwf] at hr
    exact access_ne_refused hwf r hr
  · intro hwf
    obtain ⟨r, hr⟩ := Option.ne_none_iff_exists'.1 (mt (shapeRefusal_none_iff x s).1 hwf)
    exact ⟨r, by simp only [transact, hr]⟩

/-- The shapes without a meaning, space by space (20_memory R61). -/
theorem Txn.not_wf_iff (n : Nat) (x : Txn) :
    ¬ x.wf n = true ↔
      (x.space = .reg ∧ x.width ≠ 32) ∨ (x.space = .reg ∧ x.offset % 4 ≠ 0) ∨
      (x.space = .reg ∧ 0x20 ≤ x.offset) ∨ (x.space ≠ .reg ∧ x.width ≠ 8) ∨
      (x.space = .inp ∧ n ≤ x.offset) ∨ (x.space = .out ∧ 4 * ((n + 2) / 3) ≤ x.offset) := by
  obtain ⟨space, offset, width, acc⟩ := x
  cases space with
  | reg =>
    simp only [Txn.wf_reg_iff, ne_eq, true_and, not_true_eq_false, reduceCtorEq, false_and, or_false]
    omega
  | inp =>
    simp only [Txn.wf_inp_iff, ne_eq, true_and, not_false_eq_true, reduceCtorEq, false_and, false_or, or_false]
    omega
  | out =>
    simp only [Txn.wf_out_iff, maxOutLen, ne_eq, true_and, not_false_eq_true, reduceCtorEq, false_and, false_or]
    omega

/-- The core performs the latched command only, so it is never refused (log entry 1). -/
theorem exec_latched_ne_refused {s : State} (hb : s.status = .busy) (r : Refusal) :
    exec (latchedInstr s) s ≠ .refused r := by
  rw [exec_eq, coreStep, if_pos ⟨hb, rfl⟩]
  split <;> simp

/-- Of the lines only a transaction is refused: `poll` and reset always have a meaning. -/
theorem performLine_refused {l : Line} {s : State} {r : Refusal} (h : performLine l s = .refused r) :
    ∃ x, l = .txn x := by
  cases l with
  | txn x => exact ⟨x, rfl⟩
  | poll | reset => cases h

/-! ### What a read changes (20_memory R60) -/

/-- A read hands a word to the host and changes nothing of the block. -/
theorem onlyHostLearns_of_read {s t : State} {x : Txn} {rest : List Line} (hread : x.access = .read)
    (h : transact x (afterTake s rest) = .next t) : ∃ w, onlyHostLearns s t rest w := by
  obtain ⟨-, ⟨r, -, -, -, rfl⟩ | ⟨_, _, -, hacc, -⟩ | ⟨b, -, -, -, rfl⟩ | ⟨_, -, hacc, -⟩ |
    ⟨b, -, -, -, -, -, rfl⟩ | ⟨_, -, hacc, -⟩⟩ := transact_next h
  · exact ⟨_, onlyHostLearns_readReg r s rest⟩
  · cases hread.symm.trans hacc
  · exact ⟨zext32 b, rfl⟩
  · cases hread.symm.trans hacc
  · exact ⟨zext32 b, rfl⟩
  · cases hread.symm.trans hacc

/-! ### The obligations -/

/-- Settles O16: the line is the read transaction, and a read only hands its word to the host. -/
theorem readsChangeNothingOfTheBlock : Obligations.ReadsChangeNothingOfTheBlock := by
  intro s t x rest hturn hread h
  rw [step_line hturn.1 hturn.2] at h
  exact onlyHostLearns_of_read hread h

/-- Settles O21: the core does not move, and of a line's effects only reset and a CMD write touch the results. -/
theorem resultsStayUntilNextCommand : Obligations.ResultsStayUntilNextCommand := by
  intro s t l rest hb hp hcmd hreset h
  cases stepEffect_of_step h with
  | core data hm hbusy => exact absurd hbusy hb
  | reset rest' hturn =>
    obtain ⟨rfl, -⟩ := List.cons.inj (hp.symm.trans hturn.2)
    exact absurd rfl hreset
  | hostSide _ rest' hm hkept => rw [hkept]; exact ⟨rfl, rfl, rfl, rfl, rfl⟩
  | cmdWrite w rest' hturn =>
    obtain ⟨rfl, -⟩ := List.cons.inj (hp.symm.trans hturn.2)
    cases hcmd
  | inLenWrite | inWrite => exact ⟨rfl, rfl, rfl, rfl, rfl⟩

/-- Settles O24: a transaction is refused for its shape alone, and neither the core nor another line is refused. -/
theorem refusesExactlyIllShapedTransactions : Obligations.RefusesExactlyIllShapedTransactions := by
  refine ⟨fun s x rest hturn => ?_, fun s r h => ?_⟩
  · rw [step_line hturn.1 hturn.2]
    exact (transact_refused_iff x (afterTake s rest)).trans (Txn.not_wf_iff s.maxIn.toNat x)
  · cases hm : coreMoves s with
    | true =>
      rw [step_core hm] at h
      exact absurd h (exec_latched_ne_refused ((coreMoves_iff s).1 hm).1 r)
    | false =>
      cases hp : s.pending with
      | nil =>
        rw [step_stuck (not_busy_of_no_line hm hp) hp] at h
        cases h
      | cons l rest =>
        rw [step_line hm hp] at h
        obtain ⟨x, rfl⟩ := performLine_refused h
        exact ⟨x, rest, hm, hp⟩

/-- Settles O25: outside the window the write is performed on IN alone, and a byte with a value is returned. -/
theorem inBufferStoresAndReturnsBytes : Obligations.InBufferStoresAndReturnsBytes := by
  refine ⟨fun s i b rest hi hb hseen hp => ?_, fun s i b rest hi hval hturn => ?_⟩
  · have hstep := step_wrin (hostTurn_of_not_busy hb hp) hi
    rw [writeIn_of_window_closed (s := afterTake s rest) hb hseen] at hstep
    exact ⟨_, hstep, Memory.read_write_same s.inBuf i b,
      fun k hk => Memory.read_write_other s.inBuf hk.symm b, rfl⟩
  · rw [step_rdin hturn hi]
    exact readIn_of_value (s := afterTake s rest) hval

/-- Settles O28: the invariant says that in OK the bytes below OUT_LEN hold values and lie inside OUT. -/
theorem outBufferReturnsTheOutput : Obligations.OutBufferReturnsTheOutput := by
  intro s j rest hinv hok hj hp
  obtain ⟨-, -, hfits, hread⟩ := (resultsFit_ok_iff hok).1 hinv.results
  obtain ⟨b, hval⟩ := Option.ne_none_iff_exists'.1 ((hread j).2 hj)
  refine ⟨b, hval, ?_⟩
  rw [step_rdout (hostTurn_of_not_busy (by simp [hok]) hp) (hj.trans_le hfits)]
  exact readOut_of_value (s := afterTake s rest) hok hj hval

end Sys2Proof.Machine
end

section
/-! SUPPORT. The encodings (30_encoding): the command word, the issue of a command, `poll`, and the fields of the
group word. -/

open Sys2Proof.Claims

namespace Sys2Proof

/-! ### The command word (30_encoding R70 to R74) -/

@[simp] theorem encode_encStd : encode .encStd = 0x00000001#32 := rfl

@[simp] theorem encode_encUrl : encode .encUrl = 0x00000005#32 := rfl

@[simp] theorem encode_dec : encode .dec = 0x00000002#32 := rfl

/-- A word is its three fields, joined again (30_encoding R70). -/
theorem joinFields_splitWord (w : Word) : joinFields (splitWord w) = w := by
  have hvar : w.extractLsb' 3 29 ++ w.extractLsb' 2 1 = w.extractLsb' 2 30 :=
    BitVec.extractLsb'_append_extractLsb'_eq_extractLsb' rfl
  have hop : w.extractLsb' 2 30 ++ w.extractLsb' 0 2 = w.extractLsb' 0 32 :=
    BitVec.extractLsb'_append_extractLsb'_eq_extractLsb' rfl
  rw [joinFields, splitWord, hvar, hop, BitVec.extractLsb'_eq_self]

/-- The words the decoder accepts have exactly the fields of a command (30_encoding R71 to R74). -/
theorem splitWord_of_decodeWord {w : Word} {i : Instr} (h : decodeWord w = .ok i) : splitWord w = i.fields := by
  rcases hf : splitWord w with ⟨op, var, rsv⟩
  simp only [decodeWord, hf, CommandFields.reservedZero, CommandFields.opLegal, CommandFields.varLegal] at h
  split_ifs at h with hrsv hop hvar hdec hurl <;> cases h
  · -- `DEC`
    simp_all [Instr.fields]
  · -- `ENC.URL`
    simp_all [Instr.fields]
  · -- `ENC.STD`
    have hvar0 : var = 0#1 := (BitVec.eq_zero_or_eq_one var).resolve_right (by simpa using hurl)
    simp_all [Instr.fields]

theorem decodeWord_encode (i : Instr) : decodeWord (encode i) = .ok i := by
  cases i <;> rfl

theorem decodeWord_eq_ok_iff (w : Word) (i : Instr) : decodeWord w = .ok i ↔ w = encode i := by
  constructor
  · intro h
    calc w = joinFields (splitWord w) := (joinFields_splitWord w).symm
      _ = encode i := by rw [splitWord_of_decodeWord h, encode]
  · rintro rfl
    exact decodeWord_encode i

/-- The reserved words are those that no command encodes to (30_encoding R74). -/
theorem decodeWord_error_iff (w : Word) : (∃ e, decodeWord w = .error e) ↔ ∀ i, w ≠ encode i := by
  constructor
  · rintro ⟨e, he⟩ i rfl
    rw [decodeWord_encode] at he
    cases he
  · intro h
    cases hd : decodeWord w with
    | error e => exact ⟨e, rfl⟩
    | ok i => exact absurd ((decodeWord_eq_ok_iff w i).1 hd) (h i)

theorem decodeWord_error_iff_words (w : Word) :
    (∃ e, decodeWord w = .error e) ↔ w ≠ 0x00000001#32 ∧ w ≠ 0x00000005#32 ∧ w ≠ 0x00000002#32 := by
  rw [decodeWord_error_iff]
  exact ⟨fun h => ⟨h .encStd, h .encUrl, h .dec⟩, fun ⟨hstd, hurl, hdec⟩ i => by cases i <;> assumption⟩

theorem decodeWord_ok_iff_words (w : Word) :
    (∃ i, decodeWord w = .ok i) ↔ w = 0x00000001#32 ∨ w = 0x00000005#32 ∨ w = 0x00000002#32 := by
  simp only [decodeWord_eq_ok_iff]
  constructor
  · rintro ⟨i, rfl⟩
    cases i <;> simp
  · rintro (h | h | h)
    exacts [⟨.encStd, h⟩, ⟨.encUrl, h⟩, ⟨.dec, h⟩]

namespace Machine

/-! ### CMD writes and `poll` (30_encoding R75, R76, R83) -/

theorem writeCmd_of_busy {s : State} (hb : s.status = .busy) (w : Word) : writeCmd w s = s := by
  simp [writeCmd, hb]

theorem step_cmdWrite {s : State} {w : Word} {rest : List Line} (h : hostTurn s (Line.wr 0x00 w) rest) :
    step s = .next (writeCmd w (afterTake s rest)) :=
  step_wr .cmd h

theorem step_poll {s : State} {rest : List Line} (h : hostTurn s .poll rest) :
    step s = .next (pollStatus (afterTake s rest)) :=
  step_line h.1 h.2

theorem pollStatus_of_busy {s : State} (hb : s.status = .busy) :
    pollStatus s = { readReg .status s with pending := .poll :: (readReg .status s).pending } := by
  simp [pollStatus, hb]

theorem pollStatus_of_not_busy {s : State} (hb : s.status ≠ .busy) : pollStatus s = readReg .status s := by
  simp [pollStatus, hb]

theorem readReg_pending (r : Reg) (s : State) : (readReg r s).pending = s.pending := by
  unfold readReg
  split <;> rfl

/-! ### The group word (30_encoding R78 to R80) -/

/-- Concatenation puts the left operand above the right one (00_scope R14). -/
theorem toNat_append_eq_add {m n : Nat} (a : BitVec m) (b : BitVec n) :
    (a ++ b).toNat = a.toNat * 2 ^ n + b.toNat := by
  rw [BitVec.toNat_append, ← Nat.shiftLeft_add_eq_or_of_lt b.isLt, Nat.shiftLeft_eq]

theorem packBytes_toNat (b0 b1 b2 : Byte) :
    (packBytes b0 b1 b2).toNat = 65536 * b0.toNat + 256 * b1.toNat + b2.toNat := by
  simp only [packBytes, toNat_append_eq_add]
  omega

theorem packSyms_toNat (v0 v1 v2 v3 : Sym) :
    (packSyms v0 v1 v2 v3).toNat = 262144 * v0.toNat + 4096 * v1.toNat + 64 * v2.toNat + v3.toNat := by
  simp only [packSyms, toNat_append_eq_add]
  omega

theorem groupIndex_toNat (w : Group) (j : Nat) : (groupIndex w j).toNat = w.toNat / 2 ^ (18 - 6 * j) % 64 := by
  simp only [groupIndex, BitVec.extractLsb'_toNat, Nat.shiftRight_eq_div_pow, Nat.reducePow]

theorem groupByte_toNat (w : Group) (i : Nat) : (groupByte w i).toNat = w.toNat / 2 ^ (16 - 8 * i) % 256 := by
  simp only [groupByte, BitVec.extractLsb'_toNat, Nat.shiftRight_eq_div_pow, Nat.reducePow]

/-- A field of `n` bits at position `k` is a shift by `k` and a mask of `n` ones. -/
theorem extractLsb'_eq_shift_and_mask {m : Nat} (w : BitVec m) (k n : Nat) :
    w.extractLsb' k n = ((w >>> k) &&& BitVec.ofNat m (2 ^ n - 1)).setWidth n := by
  refine BitVec.eq_of_getLsbD_eq fun i hi => ?_
  simp only [BitVec.getLsbD_extractLsb', BitVec.getLsbD_setWidth, BitVec.getLsbD_and, BitVec.getLsbD_ushiftRight,
    BitVec.getLsbD_ofNat, Nat.testBit_two_pow_sub_one]
  by_cases hm : k + i < m
  · simp [hi, show i < m by omega]
  · simp [hi, BitVec.getLsbD_of_ge w (k + i) (by omega)]

/-! ### The obligations -/

/-- Settles O1: the decoder inverts the encoder, and an accepted word has the fields of its command, which no other
word has. -/
theorem commandWordDecodeIsExact : Obligations.CommandWordDecodeIsExact :=
  ⟨fun i _ => decodeWord_encode i, fun w => ⟨decodeWord_eq_ok_iff w .encStd, decodeWord_eq_ok_iff w .encUrl,
    decodeWord_eq_ok_iff w .dec, decodeWord_error_iff_words w⟩⟩

/-- Settles O13: the line is performed, and the write is one of the cases of `writeCmd_cases`, which the word and the
length tell apart. -/
theorem cmdWriteIssuesCommand : Obligations.CmdWriteIssuesCommand := by
  intro s w rest hb hp
  refine ⟨_, step_cmdWrite (hostTurn_of_not_busy hb hp), ?_⟩
  obtain ⟨hbusy, -⟩ | ⟨-, ⟨e, he⟩, heq⟩ | ⟨-, hok, hlong, heq⟩ | ⟨-, hfits, i, hi, heq⟩ :=
    writeCmd_cases w (afterTake s rest)
  · exact absurd hbusy hb
  · have hres : ¬ (w = 0x00000001#32 ∨ w = 0x00000005#32 ∨ w = 0x00000002#32) := by
      rw [← decodeWord_ok_iff_words, he]
      simp
    rw [if_neg hres, heq]
    rfl
  · rw [if_pos ((decodeWord_ok_iff_words w).1 hok), if_pos (show s.maxIn < s.inLen from hlong), heq]
    rfl
  · rw [if_pos ((decodeWord_ok_iff_words w).1 ⟨i, hi⟩), if_neg (show ¬ s.maxIn < s.inLen from BitVec.not_lt.2 hfits), heq,
      (decodeWord_eq_ok_iff w i).1 hi]
    cases i <;> rfl

/-- Settles O38: every field is a quotient and a remainder of the group word's value. -/
theorem groupWordFields : Obligations.GroupWordFields := by
  refine ⟨fun b0 b1 b2 => ?_, fun v0 v1 v2 v3 => ?_⟩
  · refine ⟨packBytes_toNat b0 b1 b2, ?_, ?_, ?_, ?_⟩ <;>
    · rw [groupIndex_toNat, packBytes_toNat]
      omega
  · refine ⟨packSyms_toNat v0 v1 v2 v3, ?_, ?_, ?_⟩ <;>
    · rw [groupByte_toNat, packSyms_toNat]
      omega

/-- Settles O2: each word is evaluated. -/
theorem sampleWordsDecodeRight : Obligations.SampleWordsDecodeRight :=
  ⟨rfl, rfl, rfl, rfl, rfl, rfl⟩

/-- Settles O14: the line is performed, and `writeCmd` ignores the write. -/
theorem cmdWriteWhileBusyIsIgnored : Obligations.CmdWriteWhileBusyIsIgnored := by
  intro s w rest hb h
  rw [step_cmdWrite h, writeCmd_of_busy (s := afterTake s rest) hb]

/-- Settles O31: `poll` is a read of STATUS, put back before the other lines while BUSY. -/
theorem pollRepeatsWhileBusy : Obligations.PollRepeatsWhileBusy := by
  intro s rest h
  have hread := onlyHostLearns_readReg .status s rest
  refine ⟨_, step_poll h, ?_⟩
  by_cases hb : s.status = .busy
  · rw [pollStatus_of_busy (s := afterTake s rest) hb, if_pos hb, readReg_pending]
    unfold onlyHostLearns at hread ⊢
    exact ⟨by rw [hread]; rfl, rfl⟩
  · rw [pollStatus_of_not_busy (s := afterTake s rest) hb, if_neg hb, readReg_pending]
    exact ⟨hread, rfl⟩

/-- Settles O39: each mask is the ones of its field's width. -/
theorem fieldsAreShiftAndMask : Obligations.FieldsAreShiftAndMask :=
  ⟨fun w j _ => extractLsb'_eq_shift_and_mask w (18 - 6 * j) 6,
    fun w i _ => extractLsb'_eq_shift_and_mask w (16 - 8 * i) 8⟩

end Machine

end Sys2Proof
end

section
/-! SUPPORT. The alphabet ROMs and the classes of bytes (40_alphabet). A ROM is a table of constants, so what it
holds is read off entry by entry; the classes follow from the few facts about the entries. -/

open Sys2Proof.Claims

namespace Sys2Proof.Machine

/-! ### The entries of the ROMs (40_alphabet R90 to R94) -/

theorem fwd_toNat (var : Variant) : ∀ i : Sym, (fwd var i).toNat =
    if i.toNat < 26 then 0x41 + i.toNat
    else if i.toNat < 52 then 0x61 + (i.toNat - 26)
    else if i.toNat < 62 then 0x30 + (i.toNat - 52)
    else match var with
      | .standard => if i.toNat = 62 then 0x2B else 0x2F
      | .urlSafe => if i.toNat = 62 then 0x2D else 0x5F := by
  cases var <;> decide

theorem rev_fwd (var : Variant) : ∀ i : Sym, rev (fwd var i) = i.setWidth 8 := by
  cases var <;> decide

/-- A code with a symbol value stands in a forward table, at the index its value names. -/
theorem fwd_symValue : ∀ c : Byte, rev c ≤ 0x3F#8 →
    fwd .standard (symValue c) = c ∨ fwd .urlSafe (symValue c) = c := by
  decide

theorem rev_eq_ws_iff : ∀ c : Byte, rev c = 0xFE#8 ↔ c ∈ wsCodes := by
  decide

/-! ### What the entries say of the alphabets -/

theorem symValue_fwd (var : Variant) (i : Sym) : symValue (fwd var i) = i := by
  rw [symValue, rev_fwd, BitVec.setWidth_setWidth_of_le i (by decide), BitVec.setWidth_eq]

theorem rev_fwd_le (var : Variant) (i : Sym) : rev (fwd var i) ≤ 0x3F#8 := by
  rw [rev_fwd, BitVec.le_def, BitVec.toNat_setWidth_of_le (by decide)]
  exact Nat.le_of_lt_succ i.isLt

/-- The pad is no symbol (40_alphabet R96): its `REV` entry is the sentinel INVALID. -/
theorem fwd_ne_padByte (var : Variant) (i : Sym) : fwd var i ≠ padByte := by
  intro h
  exact absurd (h ▸ rev_fwd_le var i) (by decide)

/-- The alphabets are printable ASCII: no control code, no blank, nothing past 0x7E. -/
theorem fwd_printable (var : Variant) (i : Sym) : 0x20 < (fwd var i).toNat ∧ (fwd var i).toNat < 0x7F := by
  rw [fwd_toNat]
  cases var <;> dsimp only <;> split_ifs <;> omega

/-! ### The classes (40_alphabet R97 to R99) -/

theorem classify_pad_iff (c : Byte) (p : Profile) : classify c p = .pad ↔ c = padByte := by
  refine ⟨fun h => ?_, fun h => h ▸ classify_pad p⟩
  unfold classify at h
  split_ifs at h with hpad
  exact hpad

theorem classify_ws_iff_mem (c : Byte) (p : Profile) : classify c p = .ws ↔ p = .tolerant ∧ c ∈ wsCodes := by
  rw [classify_ws_iff, ← rev_eq_ws_iff]
  constructor
  · rintro ⟨-, -, hrev, hp⟩
    exact ⟨hp, hrev⟩
  · rintro ⟨hp, hrev⟩
    refine ⟨?_, by rw [hrev]; decide, hrev, hp⟩
    rintro rfl
    exact absurd hrev (by decide)

theorem classify_fwd (var : Variant) (i : Sym) (p : Profile) : classify (fwd var i) p = .sym i :=
  (classify_sym_iff _ _ _).2 ⟨fwd_ne_padByte var i, rev_fwd_le var i, symValue_fwd var i⟩

theorem classify_sym_iff_fwd (c : Byte) (p : Profile) (v : Sym) :
    classify c p = .sym v ↔ ∃ var, fwd var v = c := by
  constructor
  · intro h
    obtain ⟨-, hrev, rfl⟩ := (classify_sym_iff c p v).1 h
    exact (fwd_symValue c hrev).elim (⟨.standard, ·⟩) (⟨.urlSafe, ·⟩)
  · rintro ⟨var, rfl⟩
    exact classify_fwd var v p

/-- INV is what is left: no pad, no whitespace code, no symbol of either alphabet. -/
theorem classify_inv_of_no_other_class {c : Byte} (p : Profile) (hpad : c ≠ padByte) (hws : c ∉ wsCodes)
    (hsym : ∀ var i, fwd var i ≠ c) : classify c p = .inv := by
  cases h : classify c p with
  | pad => exact absurd ((classify_pad_iff c p).1 h) hpad
  | ws => exact absurd ((classify_ws_iff_mem c p).1 h).2 hws
  | sym v =>
    obtain ⟨var, hfwd⟩ := (classify_sym_iff_fwd c p v).1 h
    exact absurd hfwd (hsym var v)
  | inv => rfl

theorem classify_inv_of_not_printable {c : Byte} (p : Profile) (hws : c ∉ wsCodes)
    (h : c.toNat ≤ 0x20 ∨ 0x7F ≤ c.toNat) : classify c p = .inv := by
  refine classify_inv_of_no_other_class p ?_ hws fun var i hfwd => ?_
  · rintro rfl
    exact absurd h (by decide)
  · obtain ⟨hlow, hhigh⟩ := fwd_printable var i
    rw [hfwd] at hlow hhigh
    omega

theorem wsCodes_ascii : ∀ c ∈ wsCodes, c.toNat < 0x80 := by
  decide

/-! ### The obligations -/

/-- Settles O36: the entries' values, the inverse law and its converse, each a fact about the ROMs. -/
theorem tablesHoldTheAlphabets : Obligations.TablesHoldTheAlphabets := by
  refine ⟨fwd_toNat, fun var i => ?_, ⟨rfl, rfl, rfl, rfl⟩, fun c hc => ?_⟩
  · rw [rev_fwd, BitVec.toNat_setWidth_of_le (by decide)]
  · obtain h | h := fwd_symValue c hc
    exacts [⟨_, _, h⟩, ⟨_, _, h⟩]

/-- Settles O37: PAD, WS and SYM are characterised above, and a control code or a code past ASCII is none of them. -/
theorem everyByteHasItsClass : Obligations.EveryByteHasItsClass := by
  intro c p
  refine ⟨classify_pad_iff c p, classify_ws_iff_mem c p, classify_sym_iff_fwd c p, fun hctl hws => ?_,
    fun hhigh => ?_⟩
  · refine classify_inv_of_not_printable p hws (hctl.imp Nat.le_of_lt ?_)
    rintro rfl
    decide
  · refine classify_inv_of_not_printable p (fun hws => ?_) (.inr (by omega))
    exact absurd (wsCodes_ascii c hws) (by omega)

end Sys2Proof.Machine
end

section
/-! SUPPORT. The encoder's output (41_encode R112 to R124) read as one list of symbol indices followed by pads, and its
round trip through the decoder. -/

open Sys2Proof.Claims

namespace Sys2Proof.Machine

/-! ### The groups of a buffer (41_encode R112, 42_decode R150) -/

theorem groups3_getElem? {α : Type} (l : List α) (g : Nat) :
    (groups3 l)[g]? = if 3 * g < l.length then some ((l.drop (3 * g)).take 3) else none := by
  induction l using groups3_induction generalizing g with
  | h0 => simp [groups3]
  | h1 a => cases g <;> simp [groups3]
  | h2 a b => cases g <;> simp [groups3]; omega
  | h3 a b c rest ih =>
    cases g with
    | zero => simp [groups3]
    | succ g => simp [groups3, ih, Nat.mul_succ]

theorem groups4_getElem? {α : Type} (l : List α) (g : Nat) :
    (groups4 l)[g]? = if 4 * g < l.length then some ((l.drop (4 * g)).take 4) else none := by
  induction l using groups4_induction generalizing g with
  | h0 => simp [groups4]
  | h1 a => cases g <;> simp [groups4]
  | h2 a b => cases g <;> simp [groups4]; omega
  | h3 a b c => cases g <;> simp [groups4]; omega
  | h4 a b c d rest ih =>
    cases g with
    | zero => simp [groups4]
    | succ g => simp [groups4, ih, Nat.mul_succ]

/-! ### The symbol indices of a group (41_encode R113) -/

/-- The indices of the k + 1 meaningful symbols of a group of k bytes. -/
def groupIndices (grp : List Byte) : List Sym :=
  (List.range (grp.length + 1)).map (groupIndex (encodeGroupWord grp))

theorem meaningfulSymbols_eq (var : Variant) (grp : List Byte) :
    meaningfulSymbols var grp = (groupIndices grp).map (fwd var) := by
  simp [meaningfulSymbols, groupIndices]

theorem encodeGroup_eq (var : Variant) (grp : List Byte) :
    encodeGroup var grp = (groupIndices grp).map (fwd var) ++ groupPadding var grp.length := by
  rw [encodeGroup, meaningfulSymbols_eq]

theorem groupIndices_length (grp : List Byte) : (groupIndices grp).length = grp.length + 1 := by
  simp [groupIndices]

/-- The four indices of a group word, computed from its bytes (30_encoding R78). -/
theorem groupIndex_packBytes (a b c : Byte) :
    groupIndex (packBytes a b c) 0 = BitVec.ofNat 6 (a.toNat / 4) ∧
    groupIndex (packBytes a b c) 1 = BitVec.ofNat 6 (a.toNat % 4 * 16 + b.toNat / 16) ∧
    groupIndex (packBytes a b c) 2 = BitVec.ofNat 6 (b.toNat % 16 * 4 + c.toNat / 64) ∧
    groupIndex (packBytes a b c) 3 = BitVec.ofNat 6 (c.toNat % 64) := by
  obtain ⟨-, h0, h1, h2, h3⟩ := groupWordFields.1 a b c
  have hofNat : ∀ (v : Sym) {n : Nat}, v.toNat = n → v = BitVec.ofNat 6 n := by
    rintro v _ rfl
    rw [BitVec.ofNat_toNat, BitVec.setWidth_eq]
  exact ⟨hofNat _ h0, hofNat _ h1, hofNat _ h2, hofNat _ h3⟩

theorem groupIndices_one (a : Byte) :
    groupIndices [a] = [BitVec.ofNat 6 (a.toNat / 4), BitVec.ofNat 6 (a.toNat % 4 * 16)] := by
  obtain ⟨h0, h1, -, -⟩ := groupIndex_packBytes a 0#8 0#8
  simp [groupIndices, encodeGroupWord_one, List.range_succ, h0, h1]

theorem groupIndices_two (a b : Byte) :
    groupIndices [a, b] =
      [BitVec.ofNat 6 (a.toNat / 4), BitVec.ofNat 6 (a.toNat % 4 * 16 + b.toNat / 16),
        BitVec.ofNat 6 (b.toNat % 16 * 4)] := by
  obtain ⟨h0, h1, h2, -⟩ := groupIndex_packBytes a b 0#8
  simp [groupIndices, encodeGroupWord_two, List.range_succ, h0, h1, h2]

theorem groupIndices_three (a b c : Byte) :
    groupIndices [a, b, c] =
      [BitVec.ofNat 6 (a.toNat / 4), BitVec.ofNat 6 (a.toNat % 4 * 16 + b.toNat / 16),
        BitVec.ofNat 6 (b.toNat % 16 * 4 + c.toNat / 64), BitVec.ofNat 6 (c.toNat % 64)] := by
  obtain ⟨h0, h1, h2, h3⟩ := groupIndex_packBytes a b c
  simp [groupIndices, encodeGroupWord_three, List.range_succ, h0, h1, h2, h3]

/-! ### Decoding a group's indices (42_decode R153, R154) -/

theorem packSyms_groupIndex (w : Group) :
    packSyms (groupIndex w 0) (groupIndex w 1) (groupIndex w 2) (groupIndex w 3) = w := by
  refine BitVec.eq_of_toNat_eq ?_
  simp only [packSyms_toNat, groupIndex_toNat]
  have := w.isLt
  omega

theorem groupByte_packBytes (a b c : Byte) :
    groupByte (packBytes a b c) 0 = a ∧ groupByte (packBytes a b c) 1 = b ∧ groupByte (packBytes a b c) 2 = c := by
  refine ⟨BitVec.eq_of_toNat_eq ?_, BitVec.eq_of_toNat_eq ?_, BitVec.eq_of_toNat_eq ?_⟩ <;>
  · rw [groupByte_toNat, packBytes_toNat]
    omega

/-- The last bits of a short group's word are zero, and so is a missing symbol value. -/
theorem decodeGroupWord_groupIndices : ∀ {grp : List Byte}, grp.length ≤ 3 →
    decodeGroupWord (groupIndices grp) = encodeGroupWord grp
  | [], _ => rfl
  | [a], _ => by
    obtain ⟨-, -, h2, h3⟩ := groupIndex_packBytes a 0#8 0#8
    rw [encodeGroupWord_one, ← packSyms_groupIndex (packBytes a 0#8 0#8), h2, h3]
    rfl
  | [a, b], _ => by
    obtain ⟨-, -, -, h3⟩ := groupIndex_packBytes a b 0#8
    rw [encodeGroupWord_two, ← packSyms_groupIndex (packBytes a b 0#8), h3]
    rfl
  | [a, b, c], _ => packSyms_groupIndex (packBytes a b c)

theorem decodeGroup_groupIndices {grp : List Byte} (h : grp.length ≤ 3) : decodeGroup (groupIndices grp) = grp := by
  rw [decodeGroup, groupIndices_length, decodeGroupWord_groupIndices h, Nat.add_sub_cancel]
  match grp, h with
  | [], _ => rfl
  | [a], _ =>
    obtain ⟨h0, -, -⟩ := groupByte_packBytes a 0#8 0#8
    simp [List.range_succ, encodeGroupWord_one, h0]
  | [a, b], _ =>
    obtain ⟨h0, h1, -⟩ := groupByte_packBytes a b 0#8
    simp [List.range_succ, encodeGroupWord_two, h0, h1]
  | [a, b, c], _ =>
    obtain ⟨h0, h1, h2⟩ := groupByte_packBytes a b c
    simp [List.range_succ, encodeGroupWord_three, h0, h1, h2]

/-! ### The symbol indices and the pads of a buffer (41_encode R115, R119) -/

/-- The indices of the meaningful symbols of a buffer, group after group. -/
def encodeIndices (data : List Byte) : List Sym := (groups3 data).flatMap groupIndices

/-- The pads at the end of the output for a buffer of n bytes: those of its last group. -/
def bufferPadding (var : Variant) (n : Nat) : List Byte :=
  match var with
  | .standard => List.replicate ((3 - n % 3) % 3) padByte
  | .urlSafe => []

theorem encodeIndices_of_short {grp : List Byte} (h0 : 0 < grp.length) (h2 : grp.length < 3) :
    encodeIndices grp = groupIndices grp := by
  match grp, h0, h2 with
  | [a], _, _ | [a, b], _, _ => simp [encodeIndices, groups3]

theorem encodeIndices_three (a b c : Byte) (rest : List Byte) :
    encodeIndices (a :: b :: c :: rest) = groupIndices [a, b, c] ++ encodeIndices rest := rfl

/-- The whole output: a group of three bytes has no pad, so every pad stands at the end. -/
theorem encodeBuffer_eq (var : Variant) (data : List Byte) :
    encodeBuffer var data = (encodeIndices data).map (fwd var) ++ bufferPadding var data.length := by
  induction data using groups3_induction with
  | h0 => cases var <;> rfl
  | h1 a =>
    rw [encodeBuffer_one, encodeGroup_eq, encodeIndices_of_short (by simp) (by simp)]
    cases var <;> rfl
  | h2 a b =>
    rw [encodeBuffer_two, encodeGroup_eq, encodeIndices_of_short (by simp) (by simp)]
    cases var <;> rfl
  | h3 a b c rest ih =>
    have hfull : groupPadding var [a, b, c].length = [] := by cases var <;> rfl
    have hpad : bufferPadding var (a :: b :: c :: rest).length = bufferPadding var rest.length := by
      cases var <;> simp [bufferPadding, Nat.add_assoc]
    rw [encodeBuffer_three, encodeGroup_eq, hfull, ih, encodeIndices_three, hpad]
    simp

theorem padByte_not_mem_map_fwd (var : Variant) (vals : List Sym) : padByte ∉ vals.map (fwd var) := by
  rw [List.mem_map]
  rintro ⟨v, -, hv⟩
  exact fwd_ne_padByte var v hv

theorem encodeBuffer_standard_eq (data : List Byte) :
    encodeBuffer .standard data =
      (encodeIndices data).map (fwd .standard) ++ List.replicate ((3 - data.length % 3) % 3) padByte :=
  encodeBuffer_eq .standard data

theorem encodeBuffer_urlSafe_eq (data : List Byte) :
    encodeBuffer .urlSafe data = (encodeIndices data).map (fwd .urlSafe) := by
  rw [encodeBuffer_eq, bufferPadding, List.append_nil]

theorem padByte_not_mem_encodeBuffer_urlSafe (data : List Byte) : padByte ∉ encodeBuffer .urlSafe data :=
  encodeBuffer_urlSafe_eq data ▸ padByte_not_mem_map_fwd .urlSafe _

theorem count_padByte_encodeBuffer_standard (data : List Byte) :
    (encodeBuffer .standard data).count padByte = (3 - data.length % 3) % 3 := by
  rw [encodeBuffer_standard_eq, List.count_append, List.count_replicate_self,
    List.count_eq_zero_of_not_mem (padByte_not_mem_map_fwd _ _), Nat.zero_add]

/-- The indices are as many as the URLSafe output's bytes, so none is left alone (42_decode R155). -/
theorem encodeIndices_length (data : List Byte) : (encodeIndices data).length = (4 * data.length + 2) / 3 := by
  calc (encodeIndices data).length = (encodeBuffer .urlSafe data).length := by
        rw [encodeBuffer_urlSafe_eq, List.length_map]
    _ = (4 * data.length + 2) / 3 := encodeBuffer_length .urlSafe data

/-- The symbols at the multiples of 16: `A`, `Q`, `g` and `w` in both alphabets (40_alphabet R90, R91). -/
theorem fwd_of_low_bits_zero (var : Variant) : ∀ i : Sym, i.toNat ∈ [0, 16, 32, 48] →
    fwd var i ∈ [0x41#8, 0x51#8, 0x67#8, 0x77#8] := by
  cases var <;> decide

/-! ### The two variants (41_encode R120) -/

/-- The forward tables differ in the two symbols that `toUrlSafe` replaces (40_alphabet R91). -/
theorem toUrlSafe_fwd_standard : ∀ v : Sym, toUrlSafe (fwd .standard v) = fwd .urlSafe v := by
  decide

theorem rdropWhile_padByte_append_replicate {l : List Byte} (h : padByte ∉ l) (n : Nat) :
    (l ++ List.replicate n padByte).rdropWhile (fun c => c = padByte) = l := by
  induction n with
  | zero =>
    rw [List.replicate_zero, List.append_nil, List.rdropWhile_eq_self_iff]
    intro hl hlast
    exact h (of_decide_eq_true hlast ▸ List.getLast_mem hl)
  | succ n ih => rw [List.replicate_succ', ← List.append_assoc, List.rdropWhile_concat_pos _ _ _ (by simp), ih]

/-! ### The scan of an encoder's output (42_decode R143, R146) -/

/-- A scan passes over pads at the end, up to two in all. -/
theorem scanFrom_replicate_padByte (p : Profile) (i : Nat) (firstPad : Option Nat) {k n : Nat} (h : k + n ≤ 2) :
    scanFrom p i firstPad k (List.replicate n padByte) = .ok [] := by
  induction n generalizing i firstPad k with
  | zero => rfl
  | succ n ih =>
    rw [List.replicate_succ, scanFrom_pad _ _ _ _ (classify_pad p) (by omega)]
    exact ih _ _ (by omega)

/-- Symbols at the front of the input are returned in order, with the positions they stand at. -/
theorem scanFrom_map_fwd_append (p : Profile) (var : Variant) (vals : List Sym) (i : Nat) (rest : List Byte) :
    scanFrom p i none 0 (vals.map (fwd var) ++ rest) =
      (scanFrom p (i + vals.length) none 0 rest).map (vals.zipIdx i ++ ·) := by
  induction vals generalizing i with
  | nil => cases h : scanFrom p i none 0 rest <;> simp [h, Except.map]
  | cons v vals ih =>
    have hlen : i + 1 + vals.length = i + (v :: vals).length := by simp only [List.length_cons]; omega
    rw [List.map_cons, List.cons_append, scanFrom_sym _ _ _ (classify_fwd var v p), ih, hlen]
    cases scanFrom p (i + (v :: vals).length) none 0 rest <;> rfl

theorem scan_encodeBuffer (p : Profile) (var : Variant) (data : List Byte) :
    scan p (encodeBuffer var data) = .ok (encodeIndices data).zipIdx := by
  have hpads : ∀ i, scanFrom p i none 0 (bufferPadding var data.length) = .ok [] := by
    intro i
    cases var with
    | standard => exact scanFrom_replicate_padByte p i none (by omega)
    | urlSafe => rfl
  rw [scan, encodeBuffer_eq, scanFrom_map_fwd_append, hpads]
  simp [Except.map]

/-! ### Decoding an encoder's indices -/

theorem unpackSyms_encodeIndices (data : List Byte) : unpackSyms (encodeIndices data) = data := by
  induction data using groups3_induction with
  | h0 => rfl
  | h1 a =>
    calc unpackSyms (encodeIndices [a]) = decodeGroup (groupIndices [a]) := by
          rw [encodeIndices_of_short (by simp) (by simp), groupIndices_one, unpackSyms_two]
      _ = [a] := decodeGroup_groupIndices (by simp)
  | h2 a b =>
    calc unpackSyms (encodeIndices [a, b]) = decodeGroup (groupIndices [a, b]) := by
          rw [encodeIndices_of_short (by simp) (by simp), groupIndices_two, unpackSyms_three]
      _ = [a, b] := decodeGroup_groupIndices (by simp)
  | h3 a b c rest ih =>
    calc unpackSyms (encodeIndices (a :: b :: c :: rest))
        = decodeGroup (groupIndices [a, b, c]) ++ unpackSyms (encodeIndices rest) := rfl
      _ = a :: b :: c :: rest := by rw [decodeGroup_groupIndices (by simp), ih]; rfl

/-! ### The obligations -/

/-- Settles O46: the scan of the output returns the symbol indices, none is left alone, and their groups decode to the
groups of the buffer. -/
theorem decodeInvertsEncode : Obligations.DecodeInvertsEncode := by
  intro p var data
  have hlone : (encodeIndices data).zipIdx.length % 4 ≠ 1 := by
    rw [List.length_zipIdx, encodeIndices_length]
    omega
  rw [decodeBuffer_of_scan (scan_encodeBuffer p var data) hlone, List.zipIdx_map_fst, unpackSyms_encodeIndices]

/-- Settles O40: the symbols are the indices' entries, each index computed from the bytes. -/
theorem encodeGroupSymbols : Obligations.EncodeGroupSymbols := by
  intro var a b c
  refine ⟨?_, ?_, ?_⟩
  · rw [encodeGroup_eq, groupIndices_one]
    cases var <;> rfl
  · rw [encodeGroup_eq, groupIndices_two]
    cases var <;> rfl
  · rw [encodeGroup_eq, groupIndices_three]
    cases var <;> rfl

/-- Settles O41, by induction along the groups. -/
theorem groupsAreConsecutive : Obligations.GroupsAreConsecutive :=
  fun data syms g => ⟨groups3_getElem? data g, groups4_getElem? syms g⟩

/-- Settles O42: the lengths are those of `encodeBuffer_length`, and the pads at the end, the only ones, are what the
URLSafe output lacks. -/
theorem encodeOutputLength : Obligations.EncodeOutputLength := by
  intro data
  have hstd : (encodeBuffer .standard data).length = 4 * ((data.length + 2) / 3) := encodeBuffer_length .standard data
  refine ⟨hstd, encodeBuffer_length .urlSafe data, ?_, count_padByte_encodeBuffer_standard data⟩
  rw [← hstd, encodeBuffer_standard_eq, encodeBuffer_urlSafe_eq]
  simp only [List.length_append, List.length_map, List.length_replicate]

/-- Settles O43: the body is the entries of the symbol indices. -/
theorem encodeOutputShape : Obligations.EncodeOutputShape := by
  intro data
  have hentries : ∀ var, ∀ c ∈ (encodeIndices data).map (fwd var), ∃ i, fwd var i = c := by
    intro var c hc
    obtain ⟨i, -, hi⟩ := List.mem_map.1 hc
    exact ⟨i, hi⟩
  refine ⟨?_, ⟨_, encodeBuffer_standard_eq data, padByte_not_mem_map_fwd _ _, hentries .standard⟩,
    padByte_not_mem_encodeBuffer_urlSafe data, encodeBuffer_urlSafe_eq data ▸ hentries .urlSafe⟩
  rw [encodeBuffer_length]
  exact Nat.mul_mod_right 4 _

/-- Settles O44: both outputs have the same symbol indices, and the tables differ as `toUrlSafe` says. -/
theorem variantsDifferOnlyAsStated : Obligations.VariantsDifferOnlyAsStated := by
  intro data
  rw [encodeBuffer_standard_eq, rdropWhile_padByte_append_replicate (padByte_not_mem_map_fwd _ _),
    encodeBuffer_urlSafe_eq, List.map_map]
  exact List.map_congr_left fun v _ => (toUrlSafe_fwd_standard v).symm

/-- Settles O45: the unused bits of the group word are zero, so the index is a multiple of 16 or of 4. -/
theorem shortGroupLastSymbol : Obligations.ShortGroupLastSymbol := by
  refine ⟨fun a => ?_, fun a b => ?_⟩
  · obtain ⟨-, -, h1, -, -⟩ := groupWordFields.1 a 0#8 0#8
    have hindex : (groupIndex (encodeGroupWord [a]) 1).toNat ∈ [0, 16, 32, 48] := by
      rw [encodeGroupWord_one, h1]
      have : a.toNat % 4 < 4 := Nat.mod_lt _ (by decide)
      interval_cases a.toNat % 4 <;> decide
    exact ⟨hindex, fun var => ⟨rfl, fwd_of_low_bits_zero var _ hindex⟩⟩
  · obtain ⟨-, -, -, h2, -⟩ := groupWordFields.1 a b 0#8
    refine ⟨?_, fun var => rfl⟩
    rw [encodeGroupWord_two, h2]
    simp

/-- Settles O47 by the lengths of the outputs. -/
theorem outputFitsOut : Obligations.OutputFitsOut :=
  fun _ _ hn => ⟨fun var => encodeBuffer_length_le var hn,
    fun _ _ h => ⟨decodeBuffer_ok_length h, decodeBuffer_ok_length_le hn h⟩⟩

end Sys2Proof.Machine
end

section
/-! SUPPORT. How the commands end over a given input (41_encode R110, R111, R117, R123, 42_decode R140, R162). -/

namespace Sys2Proof.Machine

/-- An enabled command over written input ends as `finish` says. -/
theorem exec_of_input {i : Instr} {s : State} {data : List Byte} (hb : s.status = .busy) (hl : latchedInstr s = i)
    (hin : inputIs s s.latchLen.toNat data) : exec i s = .next (finish i data s) := by
  rw [exec_eq, coreStep_of_input hb hl hin]

theorem latchedInstr_encStd {s : State} (hop : s.latchOp = .enc) (hvar : s.latchVar = .standard) :
    latchedInstr s = .encStd := by
  simp [latchedInstr, hop, hvar]

theorem latchedInstr_encUrl {s : State} (hop : s.latchOp = .enc) (hvar : s.latchVar = .urlSafe) :
    latchedInstr s = .encUrl := by
  simp [latchedInstr, hop, hvar]

/-- Over the empty buffer every command succeeds with no output. -/
theorem finish_nil (i : Instr) (s : State) : finish i [] s = completeOk [] s := by
  cases i <;> rfl

/-! ### The results a host can see (20_memory R53) -/

/-- The second state shows the host the same results of a command as the first. -/
def sameResults (t t' : State) : Prop :=
  t'.status = t.status ∧ t'.outLen = t.outLen ∧ t'.errCode = t.errCode ∧ t'.errPos = t.errPos ∧
    ∀ j, j < t.outLen.toNat → t'.outBuf.read j = t.outBuf.read j

theorem sameResults_completeOk (out : List Byte) (s s' : State) :
    sameResults (completeOk out s) (completeOk out s') := by
  refine ⟨rfl, rfl, rfl, rfl, fun j hj => ?_⟩
  have hlt : j < out.length := by
    rw [completeOk_outLen, BitVec.toNat_ofNat] at hj
    exact hj.trans_le (Nat.mod_le _ _)
  simp [Memory.read_writeBytes, hlt]

theorem sameResults_raiseInvalidSymbol (e : InvalidSymbol) (s s' : State) :
    sameResults (raiseInvalidSymbol e s) (raiseInvalidSymbol e s') :=
  ⟨rfl, rfl, rfl, rfl, fun _ _ => rfl⟩

/-- How a command ends depends on the state only by its profile. -/
theorem sameResults_finish (i : Instr) (data : List Byte) {s s' : State} (hp : s'.profile = s.profile) :
    sameResults (finish i data s) (finish i data s') := by
  cases i with
  | encStd | encUrl => exact sameResults_completeOk _ s s'
  | dec =>
    cases hd : decodeBuffer s.profile data with
    | ok out =>
      rw [finish_dec_of_ok hd, finish_dec_of_ok (hp ▸ hd)]
      exact sameResults_completeOk out s s'
    | error e =>
      rw [finish_dec_of_error hd, finish_dec_of_error (hp ▸ hd)]
      exact sameResults_raiseInvalidSymbol e s s'

/-! ### The obligations -/

/-- Settles O6: the command ends with the encoder's output, whose last bytes are its pads. -/
theorem encStdCompletes : Obligations.EncStdCompletes := by
  refine ⟨encode_encStd, fun s data hb hop hvar hin => ?_⟩
  refine ⟨_, exec_of_input hb (latchedInstr_encStd hop hvar) hin, endsOk_completeOk _ s,
    congrArg (BitVec.ofNat 32) (encodeBuffer_length .standard data), fun h => ?_, fun h => ?_⟩
  · rw [encodeBuffer_standard_eq, h]
    exact List.suffix_append _ _
  · rw [encodeBuffer_standard_eq, h]
    exact List.suffix_append _ _

/-- Settles O7: the command ends with the encoder's output, which has no pad. -/
theorem encUrlCompletes : Obligations.EncUrlCompletes := by
  refine ⟨encode_encUrl, fun s data hb hop hvar hin => ?_⟩
  exact ⟨_, exec_of_input hb (latchedInstr_encUrl hop hvar) hin, endsOk_completeOk _ s,
    congrArg (BitVec.ofNat 32) (encodeBuffer_length .urlSafe data), padByte_not_mem_encodeBuffer_urlSafe data⟩

/-- Settles O12: both states give the command the same input, and its end looks at nothing else but the profile. -/
theorem resultDependsOnlyOnInput : Obligations.ResultDependsOnlyOnInput := by
  intro i s s' t hb' hl' hlen hp hread h
  rw [exec_eq] at h
  obtain ⟨-, -, data, ⟨hdata, hall⟩, rfl⟩ := coreStep_next h
  have hin' : inputIs s' s'.latchLen.toNat data := by
    rw [hlen]
    exact ⟨hdata, fun k hk => (hread k hk).trans (hall k hk)⟩
  exact ⟨_, exec_of_input hb' hl' hin', sameResults_finish i data hp⟩

/-- Settles O9: the empty buffer has the empty output, and writing no byte leaves OUT as it was. -/
theorem emptyInputGivesEmptyOutput : Obligations.EmptyInputGivesEmptyOutput := by
  refine ⟨encodeBuffer_nil, fun _ => rfl, fun s hb hlen => ?_⟩
  have hin : inputIs s s.latchLen.toNat [] := by simp [inputIs, hlen]
  refine ⟨_, exec_of_input hb rfl hin, ?_⟩
  rw [finish_nil]
  exact ⟨rfl, rfl, rfl⟩

end Sys2Proof.Machine
end

section
/-! SUPPORT. The decoder (42_decode): the bytes of a group, what a scan returns from the bytes it passes over, what it
does once a pad is seen, and which part of an input its result depends on. -/

open Sys2Proof.Claims

namespace Sys2Proof.Machine

/-! ### The bytes of a group of symbol values (42_decode R153) -/

theorem groupByte_packSyms (v0 v1 v2 v3 : Sym) :
    groupByte (packSyms v0 v1 v2 v3) 0 = BitVec.ofNat 8 (v0.toNat * 4 + v1.toNat / 16) ∧
    groupByte (packSyms v0 v1 v2 v3) 1 = BitVec.ofNat 8 (v1.toNat % 16 * 16 + v2.toNat / 4) ∧
    groupByte (packSyms v0 v1 v2 v3) 2 = BitVec.ofNat 8 (v2.toNat % 4 * 64 + v3.toNat) := by
  obtain ⟨-, h0, h1, h2⟩ := groupWordFields.2 v0 v1 v2 v3
  have hofNat : ∀ (b : Byte) {n : Nat}, b.toNat = n → b = BitVec.ofNat 8 n := by
    rintro b _ rfl
    rw [BitVec.ofNat_toNat, BitVec.setWidth_eq]
  exact ⟨hofNat _ h0, hofNat _ h1, hofNat _ h2⟩

/-! ### The class INV (40_alphabet R97, 42_decode R144) -/

/-- A `REV` entry is a symbol value or one of the two sentinels (40_alphabet R93). -/
theorem rev_cases : ∀ c : Byte, rev c ≤ 0x3F#8 ∨ rev c = 0xFE#8 ∨ rev c = 0xFF#8 := by
  decide

theorem classify_inv_iff (c : Byte) (p : Profile) :
    classify c p = .inv ↔ c ≠ padByte ∧ (rev c = 0xFF#8 ∨ (p = .strict ∧ c ∈ wsCodes)) := by
  by_cases hpad : c = padByte
  · simp [hpad, classify_pad]
  rw [← rev_eq_ws_iff]
  obtain hsym | hws | hinv := rev_cases c
  · have hws : rev c ≠ 0xFE#8 := fun h => absurd (h ▸ hsym) (by decide)
    have hinv : rev c ≠ 0xFF#8 := fun h => absurd (h ▸ hsym) (by decide)
    simp [classify, hpad, hsym, hws, hinv]
  · cases p <;> simp [classify, hpad, hws]
  · simp [classify, hpad, hinv]

/-! ### What a scan returns (42_decode R143) -/

/-- What the scan returns from one byte and its index: the value of a symbol, at that index. -/
def symbolOf (p : Profile) (cq : Byte × Nat) : Option (Sym × Nat) :=
  match classify cq.1 p with
  | .sym v => some (v, cq.2)
  | _ => none

theorem symbolOf_eq_some_iff (p : Profile) (cq : Byte × Nat) (vq : Sym × Nat) :
    symbolOf p cq = some vq ↔ classify cq.1 p = .sym vq.1 ∧ cq.2 = vq.2 := by
  obtain ⟨v, q⟩ := vq
  unfold symbolOf
  cases classify cq.1 p <;> simp

/-- The symbols of a buffer whose first byte has index `i`, with their positions. -/
def symbolsFrom (p : Profile) (i : Nat) (data : List Byte) : List (Sym × Nat) :=
  (data.zipIdx i).filterMap (symbolOf p)

theorem symbolsFrom_cons_sym {p : Profile} {c : Byte} {v : Sym} (h : classify c p = .sym v) (i : Nat)
    (rest : List Byte) : symbolsFrom p i (c :: rest) = (v, i) :: symbolsFrom p (i + 1) rest := by
  simp [symbolsFrom, symbolOf, h]

theorem symbolsFrom_cons_of_not_sym {p : Profile} {c : Byte} (h : ∀ v, classify c p ≠ .sym v) (i : Nat)
    (rest : List Byte) : symbolsFrom p i (c :: rest) = symbolsFrom p (i + 1) rest := by
  have hnone : symbolOf p (c, i) = none :=
    Option.eq_none_iff_forall_ne_some.2 fun vq hvq => h vq.1 ((symbolOf_eq_some_iff _ _ _).1 hvq).1
  rw [symbolsFrom, List.zipIdx_cons, List.filterMap_cons_none hnone]
  rfl

theorem mem_symbolsFrom_zero_iff (p : Profile) (data : List Byte) (v : Sym) (q : Nat) :
    (v, q) ∈ symbolsFrom p 0 data ↔ classAt p data q (.sym v) := by
  simp only [symbolsFrom, List.mem_filterMap, symbolOf_eq_some_iff, List.mem_zipIdx_iff_getElem?, classAt]
  constructor
  · rintro ⟨⟨c, q'⟩, hget, hsym, rfl⟩
    exact ⟨c, hget, hsym⟩
  · rintro ⟨c, hget, hsym⟩
    exact ⟨(c, q), hget, hsym, rfl⟩

theorem symbolsFrom_positions_rise (p : Profile) (i : Nat) (data : List Byte) :
    ((symbolsFrom p i data).map Prod.snd).Pairwise (· < ·) := by
  have hrise : (data.zipIdx i).Pairwise (fun a b => a.2 < b.2) := by
    rw [← List.pairwise_map, List.zipIdx_map_snd]
    exact List.pairwise_lt_range'
  rw [List.pairwise_map, symbolsFrom, List.pairwise_filterMap]
  refine hrise.imp fun {a b} hab vq hvq wq hwq => ?_
  obtain ⟨-, ha⟩ := (symbolOf_eq_some_iff p a vq).1 hvq
  obtain ⟨-, hb⟩ := (symbolOf_eq_some_iff p b wq).1 hwq
  rwa [← ha, ← hb]

/-- A clean scan returns the symbols of its input: it passes over every other byte. -/
theorem scanFrom_ok_eq {p : Profile} {i : Nat} {firstPad : Option Nat} {padCount : Nat} {data : List Byte}
    {syms : List (Sym × Nat)} (h : scanFrom p i firstPad padCount data = .ok syms) :
    syms = symbolsFrom p i data := by
  induction data generalizing i firstPad padCount syms with
  | nil => cases h; rfl
  | cons c rest ih =>
    cases hc : classify c p with
    | ws =>
      rw [scanFrom_ws _ _ _ _ hc] at h
      rw [ih h, symbolsFrom_cons_of_not_sym (by simp [hc])]
    | pad =>
      by_cases hk : padCount ≤ 1
      · rw [scanFrom_pad _ _ _ _ hc hk] at h
        rw [ih h, symbolsFrom_cons_of_not_sym (by simp [hc])]
      · rw [scanFrom_third_pad _ _ _ _ hc (by omega)] at h
        cases h
    | inv =>
      cases firstPad with
      | none => rw [scanFrom_inv _ _ _ hc] at h; cases h
      | some q => rw [scanFrom_inv_after_pad _ _ _ q hc] at h; cases h
    | sym v =>
      cases firstPad with
      | some q => rw [scanFrom_sym_after_pad _ _ _ q hc] at h; cases h
      | none =>
        rw [scanFrom_sym _ _ _ hc] at h
        cases hrest : scanFrom p (i + 1) none padCount rest with
        | error e => rw [hrest] at h; cases h
        | ok tail =>
          rw [hrest] at h
          cases h
          rw [ih hrest, symbolsFrom_cons_sym hc]

/-! ### The scan before and after the first pad (42_decode R144, R146, R147) -/

/-- With no pad and no INV byte in front, the scan goes on behind it, keeping its symbols. -/
theorem scanFrom_append_of_clean {p : Profile} {front : List Byte}
    (h : ∀ c ∈ front, classify c p ≠ .pad ∧ classify c p ≠ .inv) (i padCount : Nat) (rest : List Byte) :
    scanFrom p i none padCount (front ++ rest) =
      (scanFrom p (i + front.length) none padCount rest).map (symbolsFrom p i front ++ ·) := by
  induction front generalizing i with
  | nil => cases hrest : scanFrom p i none padCount rest <;> simp [hrest, Except.map, symbolsFrom]
  | cons c front ih =>
    obtain ⟨⟨hpad, hinv⟩, hfront⟩ := List.forall_mem_cons.1 h
    have hlen : i + (c :: front).length = i + 1 + front.length := by rw [List.length_cons]; omega
    rw [List.cons_append, hlen]
    cases hc : classify c p with
    | pad => exact absurd hc hpad
    | inv => exact absurd hc hinv
    | ws => rw [scanFrom_ws _ _ _ _ hc, ih hfront, symbolsFrom_cons_of_not_sym (by simp [hc])]
    | sym v =>
      rw [scanFrom_sym _ _ _ hc, ih hfront, symbolsFrom_cons_sym hc]
      cases scanFrom p (i + 1 + front.length) none padCount rest <;> rfl

/-- Once a pad is seen, the scan ends clean over pads, two in all, and whitespace, and else reports that pad. -/
theorem scanFrom_after_pad (p : Profile) (i q : Nat) {padCount : Nat} (hk : padCount ≤ 2) (rest : List Byte) :
    scanFrom p i (some q) padCount rest =
      if (∀ c ∈ rest, classify c p = .pad ∨ classify c p = .ws) ∧ padCount + rest.count padByte ≤ 2 then .ok []
      else .error (misplacedPad q) := by
  induction rest generalizing i padCount with
  | nil => simp [hk]
  | cons c rest ih =>
    cases hc : classify c p with
    | ws =>
      have hne : c ≠ padByte := fun h => by simp [h, classify_pad] at hc
      rw [scanFrom_ws _ _ _ _ hc, ih (i + 1) hk]
      simp [hc, List.count_cons_of_ne hne]
    | pad =>
      obtain rfl := (classify_pad_iff c p).1 hc
      by_cases hlast : padCount ≤ 1
      · rw [scanFrom_pad _ _ _ _ hc hlast, Option.getD_some, ih (i + 1) (by omega), List.count_cons_self]
        simp [hc, Nat.add_assoc, Nat.add_comm 1]
      · rw [scanFrom_third_pad _ _ _ _ hc (by omega), Option.getD_some, List.count_cons_self,
          if_neg (fun h => by omega)]
    | inv =>
      rw [scanFrom_inv_after_pad _ _ _ q hc, if_neg (fun h => by simpa [hc] using h.1 c List.mem_cons_self)]
    | sym v =>
      rw [scanFrom_sym_after_pad _ _ _ q hc, if_neg (fun h => by simpa [hc] using h.1 c List.mem_cons_self)]

theorem classes_of_cleanBefore {p : Profile} {data : List Byte} {i : Nat} (h : cleanBefore p data i) :
    ∀ c ∈ data.take i, classify c p ≠ .pad ∧ classify c p ≠ .inv := by
  intro c hc
  obtain ⟨k, hget⟩ := List.mem_iff_getElem?.1 hc
  rw [List.getElem?_take, Option.ite_none_right_eq_some] at hget
  obtain ⟨hk, hget⟩ := hget
  obtain ⟨hpad, hinv⟩ := h k hk
  exact ⟨fun hcl => hpad ⟨c, hget, hcl⟩, fun hcl => hinv ⟨c, hget, hcl⟩⟩

theorem eq_take_append_cons_drop {α : Type} {l : List α} {i : Nat} {a : α} (h : l[i]? = some a) :
    l = l.take i ++ a :: l.drop (i + 1) := by
  obtain ⟨hi, rfl⟩ := List.getElem?_eq_some_iff.1 h
  rw [← List.drop_eq_getElem_cons hi, List.take_append_drop]

/-- An error the scan meets behind a front with no pad and no INV byte is the error of the decode. -/
theorem decodeBuffer_error_behind_clean {p : Profile} {data : List Byte} {i : Nat} {c : Byte} {e : InvalidSymbol}
    (hget : data[i]? = some c) (hclean : cleanBefore p data i)
    (he : scanFrom p i none 0 (c :: data.drop (i + 1)) = .error e) : decodeBuffer p data = .error e := by
  obtain ⟨hi, -⟩ := List.getElem?_eq_some_iff.1 hget
  have hfront : 0 + (data.take i).length = i := by rw [List.length_take]; omega
  refine decodeBuffer_of_scan_error ?_
  rw [scan, eq_take_append_cons_drop hget, scanFrom_append_of_clean (classes_of_cleanBefore hclean), hfront, he]
  rfl

/-! ### What the result depends on -/

/-- Bytes behind the input that leave its scan unchanged leave its decode unchanged: a lone symbol stands in the
input. -/
theorem decodeBuffer_append_of_scan_eq {p : Profile} {data rest : List Byte}
    (h : scan p (data ++ rest) = scan p data) : decodeBuffer p (data ++ rest) = decodeBuffer p data := by
  obtain ⟨e, hscan, heq⟩ | ⟨syms, hscan, hs, heq⟩ | ⟨syms, v, q, hscan, hs, hlast, heq⟩ := decodeBuffer_cases p data
  · rw [heq, decodeBuffer_of_scan_error (h.trans hscan)]
  · rw [heq, decodeBuffer_of_scan (h.trans hscan) hs]
  · have hq : q < data.length := by
      simpa using (scanFrom_ok_bounds hscan).2 _ (List.mem_of_getLast? hlast)
    rw [heq, decodeBuffer_of_lone (h.trans hscan) hs hlast, List.getD_append _ _ _ _ hq]

/-- The scan looks at the profile only to classify the bytes. -/
theorem scanFrom_congr_classes {p p' : Profile} {data : List Byte} (h : ∀ c ∈ data, classify c p = classify c p')
    (i : Nat) (firstPad : Option Nat) (padCount : Nat) :
    scanFrom p i firstPad padCount data = scanFrom p' i firstPad padCount data := by
  induction data generalizing i firstPad padCount with
  | nil => rfl
  | cons c rest ih =>
    obtain ⟨hc, hrest⟩ := List.forall_mem_cons.1 h
    simp only [scanFrom, hc, ih hrest]

/-- A code that is no whitespace code has one class, whatever the profile (42_decode R141). -/
theorem classify_eq_of_not_ws {c : Byte} (h : c ∉ wsCodes) (p p' : Profile) : classify c p = classify c p' := by
  rw [← rev_eq_ws_iff] at h
  simp [classify, h]

/-- The symbol values of a scan that raises nothing, without their positions. -/
def scannedValues (r : Except InvalidSymbol (List (Sym × Nat))) : Option (List Sym) :=
  r.toOption.map (List.map Prod.fst)

theorem scannedValues_map_cons (r : Except InvalidSymbol (List (Sym × Nat))) (v : Sym) (i : Nat) :
    scannedValues (r.map (fun syms => (v, i) :: syms)) = (scannedValues r).map (v :: ·) := by
  cases r <;> rfl

/-- A decode's output depends only on the values its scan returns. -/
theorem decodeBuffer_ok_iff (p : Profile) (data out : List Byte) :
    decodeBuffer p data = .ok out ↔
      ∃ vals, scannedValues (scan p data) = some vals ∧ vals.length % 4 ≠ 1 ∧ unpackSyms vals = out := by
  obtain ⟨e, hscan, heq⟩ | ⟨syms, hscan, hs, heq⟩ | ⟨syms, v, q, hscan, hs, -, heq⟩ := decodeBuffer_cases p data
  · simp [heq, hscan, scannedValues, Except.toOption]
  · simp [heq, hscan, hs, scannedValues, Except.toOption]
  · simp [heq, hscan, hs, scannedValues, Except.toOption]

/-- Under TOLERANT the scan returns the same values with the whitespace left out: of the bytes seen it remembers only
the pads. -/
theorem scannedValues_filter_ws (data : List Byte) (i i' padCount : Nat) {firstPad firstPad' : Option Nat}
    (h : firstPad.isSome = firstPad'.isSome) :
    scannedValues (scanFrom .tolerant i firstPad padCount data) =
      scannedValues (scanFrom .tolerant i' firstPad' padCount (data.filter (fun c => c ∉ wsCodes))) := by
  induction data generalizing i i' padCount firstPad firstPad' with
  | nil => rfl
  | cons c rest ih =>
    by_cases hws : c ∈ wsCodes
    · rw [List.filter_cons_of_neg (by simpa using hws),
        scanFrom_ws _ _ _ _ ((classify_ws_iff_mem c .tolerant).2 ⟨rfl, hws⟩)]
      exact ih _ _ _ h
    · rw [List.filter_cons_of_pos (by simpa using hws)]
      cases hc : classify c .tolerant with
      | ws => exact absurd ((classify_ws_iff_mem c .tolerant).1 hc).2 hws
      | pad =>
        by_cases hk : padCount ≤ 1
        · rw [scanFrom_pad _ _ _ _ hc hk, scanFrom_pad _ _ _ _ hc hk]
          exact ih _ _ _ rfl
        · rw [scanFrom_third_pad _ _ _ _ hc (by omega), scanFrom_third_pad _ _ _ _ hc (by omega)]
          rfl
      | inv =>
        match firstPad, firstPad', h with
        | none, none, _ => rw [scanFrom_inv _ _ _ hc, scanFrom_inv _ _ _ hc]; rfl
        | some q, some q', _ => rw [scanFrom_inv_after_pad _ _ _ q hc, scanFrom_inv_after_pad _ _ _ q' hc]; rfl
      | sym v =>
        match firstPad, firstPad', h with
        | none, none, _ =>
          rw [scanFrom_sym _ _ _ hc, scanFrom_sym _ _ _ hc, scannedValues_map_cons, scannedValues_map_cons,
            ih _ (i' + 1) _ rfl]
        | some q, some q', _ => rw [scanFrom_sym_after_pad _ _ _ q hc, scanFrom_sym_after_pad _ _ _ q' hc]; rfl

/-! ### The obligations -/

/-- Settles O48: a group's bytes are those of its word, which name only the high bits of a short group's last value. -/
theorem decodeGroupBytes : Obligations.DecodeGroupBytes := by
  refine ⟨fun v0 v1 v2 v3 => ?_, fun v0 v1 v1' h => ?_, fun v0 v1 v2 v2' h => ?_⟩
  · simp only [decodeGroup_two, decodeGroup_three, decodeGroup_four, groupByte_packSyms, and_self]
  · simp only [decodeGroup_two, groupByte_packSyms, h]
  · simp only [decodeGroup_three, groupByte_packSyms, h]

/-- Settles O49: the meaningful symbols stand for the group's indices, which decode to the group. -/
theorem decodeGroupInvertsEncodeGroup : Obligations.DecodeGroupInvertsEncodeGroup := by
  intro var grp _ hlen
  have hvalues : ((encodeGroup var grp).take (grp.length + 1)).map symValue = groupIndices grp := by
    rw [encodeGroup_eq, List.take_left' (by rw [List.length_map, groupIndices_length]), List.map_map]
    exact (List.map_congr_left fun v _ => symValue_fwd var v).trans (List.map_id _)
  rw [hvalues, decodeGroup_groupIndices hlen]

/-- Settles O51: a clean scan returns the symbols of the input, read from left to right. -/
theorem scanReturnsTheSymbols : Obligations.ScanReturnsTheSymbols := by
  intro p data syms h
  rw [scanFrom_ok_eq h]
  exact ⟨mem_symbolsFrom_zero_iff p data, symbolsFrom_positions_rise p 0 data⟩

/-- Settles O50: the length is that of the symbols' bytes, and a lone symbol is a byte of the input. -/
theorem decodeOutputLength : Obligations.DecodeOutputLength := by
  intro p data syms h
  refine ⟨fun hs => ⟨_, decodeBuffer_of_scan h hs, by rw [unpackSyms_length, List.length_map]⟩, fun v q hs hlast => ?_⟩
  obtain ⟨c, hget, hsym⟩ := ((scanReturnsTheSymbols p data syms h).1 v q).1 (List.mem_of_getLast? hlast)
  refine ⟨c, hget, hsym, ?_⟩
  rw [decodeBuffer_of_lone h hs hlast, List.getD_eq_getElem?_getD, hget, Option.getD_some]

/-- Settles O53: the scan reaches the byte with no pad seen. -/
theorem firstInvalidCharacterIsReported : Obligations.FirstInvalidCharacterIsReported :=
  ⟨fun _ _ i _ hget hinv hclean => decodeBuffer_error_behind_clean hget hclean (scanFrom_inv i 0 _ hinv),
    fun p c => classify_inv_iff c p⟩

/-- Settles O54: the scan reaches the first pad, and what follows it is not pads, two in all, and whitespace. -/
theorem misplacedPadIsReportedAtFirstPad : Obligations.MisplacedPadIsReportedAtFirstPad := by
  rintro p data i ⟨c, hget, hpad⟩ hclean hbad
  refine decodeBuffer_error_behind_clean hget hclean ?_
  rw [scanFrom_pad i none 0 _ hpad (by decide), scanFrom_after_pad p _ _ (by decide), if_neg]
  · rfl
  rintro ⟨hclasses, hcount⟩
  obtain ⟨j, hj, hbehind⟩ | hthree := hbad
  · have hat : ∀ cl, classAt p data j cl → cl = .pad ∨ cl = .ws := by
      rintro _ ⟨c', hget', rfl⟩
      refine hclasses c' (List.mem_of_getElem? (i := j - (i + 1)) ?_)
      rw [List.getElem?_drop, Nat.add_sub_cancel' hj, hget']
    obtain ⟨v, hsym⟩ | hinv := hbehind
    · simpa using hat _ hsym
    · simpa using hat _ hinv
  · have hfront : (data.take i).count padByte = 0 :=
      List.count_eq_zero_of_not_mem fun hmem => (classes_of_cleanBefore hclean _ hmem).1 (classify_pad p)
    obtain rfl := (classify_pad_iff c p).1 hpad
    rw [eq_take_append_cons_drop hget, List.count_append, List.count_cons_self, hfront] at hthree
    omega

/-- Settles O55: the scan passes over the pads at the end. -/
theorem padCountIsNotChecked : Obligations.PadCountIsNotChecked := by
  intro p data k hclean hk
  have hdata : ∀ c ∈ data, classify c p ≠ .pad ∧ classify c p ≠ .inv := by
    simpa using classes_of_cleanBefore hclean
  refine decodeBuffer_append_of_scan_eq ?_
  calc scan p (data ++ List.replicate k padByte)
      = (scanFrom p (0 + data.length) none 0 (List.replicate k padByte)).map (symbolsFrom p 0 data ++ ·) :=
        scanFrom_append_of_clean hdata 0 0 _
    _ = (scanFrom p (0 + data.length) none 0 []).map (symbolsFrom p 0 data ++ ·) := by
        rw [scanFrom_replicate_padByte p _ none (by omega), scanFrom_nil]
    _ = scan p data := by rw [← scanFrom_append_of_clean hdata, List.append_nil, scan]

/-- Settles O56: the output depends on the scanned values, which whitespace does not change. -/
theorem whitespaceIsDiscarded : Obligations.WhitespaceIsDiscarded := by
  intro data out
  rw [decodeBuffer_ok_iff, decodeBuffer_ok_iff, scan, scan, scannedValues_filter_ws data 0 0 0 rfl]

/-- Settles O57: with the whitespace left out, the input of the second part is at most two pads. -/
theorem inputWithoutSymbolsGivesNothing : Obligations.InputWithoutSymbolsGivesNothing := by
  refine ⟨fun p data h => decodeBuffer_of_scan h (by decide), fun data hall hcount => ?_⟩
  rw [whitespaceIsDiscarded]
  have hpads : data.filter (fun c => c ∉ wsCodes) = List.replicate (data.count padByte) padByte := by
    rw [← List.filter_beq]
    refine List.filter_congr fun c hc => ?_
    obtain rfl | hws := List.mem_cons.1 (hall c hc)
    · decide
    · have hne : c ≠ padByte := by rintro rfl; exact absurd hws (by decide)
      simp [hws, hne]
  rw [hpads]
  exact decodeBuffer_of_scan (scanFrom_replicate_padByte .tolerant 0 none (by omega)) (by decide)

/-- Settles O58: without whitespace the profiles classify every byte of the input alike. -/
theorem profilesAgreeWithoutWhitespace : Obligations.ProfilesAgreeWithoutWhitespace := by
  intro data h
  have hscan : scan .tolerant data = scan .strict data :=
    scanFrom_congr_classes (fun c hc => classify_eq_of_not_ws (h c hc) .tolerant .strict) 0 none 0
  rw [decodeBuffer, decodeBuffer, hscan]

end Sys2Proof.Machine
end

section
/-! SUPPORT. InvalidSymbol (60_exceptions R190 to R192): how `DEC` ends, and the converse of the decoder's error rules:
which byte of the input an error reports, and why. -/

open Sys2Proof.Claims

namespace Sys2Proof.Machine

/-- `REV` has no symbol value for a byte of class INV (40_alphabet R97). -/
theorem rev_gt_of_classify_inv {c : Byte} {p : Profile} (h : classify c p = .inv) : 63 < (rev c).toNat := by
  by_contra hle
  have hsym : classify c p = .sym (symValue c) :=
    (classify_sym_iff _ _ _).2 ⟨((classify_inv_iff c p).1 h).1, Nat.le_of_not_lt hle, rfl⟩
  rw [h] at hsym
  cases hsym

/-! ### The first byte that is no symbol and no whitespace -/

/-- A buffer has no pad and no INV byte, or a first one. -/
theorem clean_or_exists_first_pad_or_inv (p : Profile) (data : List Byte) :
    (∀ i, cleanBefore p data i) ∨
      ∃ i, cleanBefore p data i ∧ (classAt p data i .pad ∨ classAt p data i .inv) := by
  classical
  by_cases h : ∃ i, classAt p data i .pad ∨ classAt p data i .inv
  · exact .inr ⟨Nat.find h, fun _ hk => not_or.1 (Nat.find_min h hk), Nat.find_spec h⟩
  · exact .inl fun _ k _ => not_or.1 fun hk => h ⟨k, hk⟩

theorem scan_ne_error_of_clean {p : Profile} {data : List Byte} (h : cleanBefore p data data.length)
    (e : InvalidSymbol) : scan p data ≠ .error e := by
  have hdata : ∀ c ∈ data, classify c p ≠ .pad ∧ classify c p ≠ .inv := by
    simpa using classes_of_cleanBefore h
  have hscan := scanFrom_append_of_clean hdata 0 0 []
  rw [List.append_nil, scanFrom_nil] at hscan
  rw [scan, hscan]
  rintro ⟨⟩

/-- Behind a front with no pad and no INV byte the scan is as at its start, with that front's symbols kept. -/
theorem scan_eq_of_cleanBefore {p : Profile} {data : List Byte} {i : Nat} {c : Byte} (hget : data[i]? = some c)
    (hclean : cleanBefore p data i) :
    scan p data = (scanFrom p i none 0 (c :: data.drop (i + 1))).map (symbolsFrom p 0 (data.take i) ++ ·) := by
  obtain ⟨hi, -⟩ := List.getElem?_eq_some_iff.1 hget
  have hfront : 0 + (data.take i).length = i := by rw [List.length_take]; omega
  have hscan := scanFrom_append_of_clean (classes_of_cleanBefore hclean) 0 0 (c :: data.drop (i + 1))
  rwa [← eq_take_append_cons_drop hget, hfront] at hscan

theorem scanFrom_error_of_cleanBefore {p : Profile} {data : List Byte} {i : Nat} {c : Byte} {e : InvalidSymbol}
    (hget : data[i]? = some c) (hclean : cleanBefore p data i) (h : scan p data = .error e) :
    scanFrom p i none 0 (c :: data.drop (i + 1)) = .error e := by
  rw [scan_eq_of_cleanBefore hget hclean] at h
  cases hrest : scanFrom p i none 0 (c :: data.drop (i + 1)) with
  | error e' => rw [hrest] at h; cases h; rfl
  | ok syms => rw [hrest] at h; cases h

/-! ### The pad rule broken (42_decode R146) -/

/-- The pad rule is broken at a first pad: a symbol or an INV byte follows it, or the input has a third pad. -/
def padRunBroken (p : Profile) (data : List Byte) (i : Nat) : Prop :=
  (∃ j, i < j ∧ (symAt p data j ∨ classAt p data j .inv)) ∨ 3 ≤ data.count padByte

theorem symAt_or_inv_of_mem_drop {p : Profile} {data : List Byte} {i : Nat} {c : Byte}
    (hmem : c ∈ data.drop (i + 1)) (hpad : classify c p ≠ .pad) (hws : classify c p ≠ .ws) :
    ∃ j, i < j ∧ (symAt p data j ∨ classAt p data j .inv) := by
  obtain ⟨k, hget⟩ := List.mem_iff_getElem?.1 hmem
  rw [List.getElem?_drop] at hget
  refine ⟨i + 1 + k, by omega, ?_⟩
  cases hc : classify c p with
  | pad => exact absurd hc hpad
  | ws => exact absurd hc hws
  | sym v => exact .inl ⟨v, c, hget, hc⟩
  | inv => exact .inr ⟨c, hget, hc⟩

/-- An error met from the first pad on reports that pad, and the pad rule is broken there (42_decode R146, R147). -/
theorem padRunBroken_of_scanFrom_error {p : Profile} {data : List Byte} {i : Nat} {e : InvalidSymbol}
    (hget : data[i]? = some padByte)
    (h : scanFrom p i none 0 (padByte :: data.drop (i + 1)) = .error e) :
    e = misplacedPad i ∧ padRunBroken p data i := by
  rw [scanFrom_pad i none 0 _ (classify_pad p) (by decide), scanFrom_after_pad p _ _ (by decide)] at h
  split_ifs at h with hrun
  cases h
  refine ⟨rfl, ?_⟩
  obtain hclasses | hcount := not_and_or.1 hrun
  · push Not at hclasses
    obtain ⟨c, hmem, hpad, hws⟩ := hclasses
    exact .inl (symAt_or_inv_of_mem_drop hmem hpad hws)
  · refine .inr ?_
    rw [eq_take_append_cons_drop hget, List.count_append, List.count_cons_self]
    omega

/-! ### Which byte a scan reports -/

/-- A scan's error reports the first byte that is a pad or of class INV: an INV byte for itself, a pad because the pad
rule is broken. -/
theorem scan_error_cases {p : Profile} {data : List Byte} {e : InvalidSymbol} (h : scan p data = .error e) :
    data[e.pos]? = some e.code ∧ cleanBefore p data e.pos ∧
      (classify e.code p = .inv ∨ (e.code = padByte ∧ padRunBroken p data e.pos)) := by
  obtain hall | ⟨i, hclean, ⟨c, hget, hc⟩ | ⟨c, hget, hc⟩⟩ := clean_or_exists_first_pad_or_inv p data
  · exact absurd h (scan_ne_error_of_clean (hall _) e)
  · obtain rfl := (classify_pad_iff c p).1 hc
    obtain ⟨rfl, hbroken⟩ := padRunBroken_of_scanFrom_error hget (scanFrom_error_of_cleanBefore hget hclean h)
    exact ⟨hget, hclean, .inr ⟨rfl, hbroken⟩⟩
  · have he := scanFrom_error_of_cleanBefore hget hclean h
    rw [scanFrom_inv i 0 _ hc] at he
    cases he
    exact ⟨hget, hclean, .inl hc⟩

/-! ### The obligations -/

/-- Settles O8: the command ends as the decoder says, and a decode error lies inside the input. -/
theorem decCompletes : Obligations.DecCompletes := by
  refine ⟨encode_dec, fun s data hb hop hin => ⟨_, exec_of_input hb ((latchedInstr_eq_dec_iff s).2 hop) hin, ?_⟩⟩
  cases hd : decodeBuffer s.profile data with
  | ok out =>
    rw [finish_dec_of_ok hd]
    exact endsOk_completeOk out s
  | error e =>
    rw [finish_dec_of_error hd, ← hin.1]
    exact ⟨endsInvalidSymbol_raiseInvalidSymbol e s, decodeBuffer_error_pos hd⟩

/-- Settles O52: the error is the scan's, at an INV byte or at the first pad, or it is the lone final symbol's. -/
theorem errorCodeTellsTheCase : Obligations.ErrorCodeTellsTheCase := by
  intro p data e h
  obtain ⟨e', hscan, heq⟩ | ⟨syms, -, -, heq⟩ | ⟨syms, v, q, hscan, hs, hlast, -⟩ := decodeBuffer_cases p data
  · rw [heq] at h
    cases h
    obtain ⟨hget, hclean, hinv | ⟨hpad, hbroken⟩⟩ := scan_error_cases hscan
    · exact ⟨hget, .inr (.inr ⟨((classify_inv_iff _ p).1 hinv).1, rev_gt_of_classify_inv hinv, hclean, hinv⟩)⟩
    · exact ⟨hget, .inl ⟨hpad, hclean, hbroken⟩⟩
  · rw [heq] at h
    cases h
  · obtain ⟨c, hget, hsym, heq⟩ := (decodeOutputLength p data syms hscan).2 v q hs hlast
    rw [heq] at h
    cases h
    obtain ⟨-, hrev, -⟩ := (classify_sym_iff c p v).1 hsym
    exact ⟨hget, .inr (.inl ⟨hrev, syms, v, hscan, hs, hlast⟩)⟩

end Sys2Proof.Machine
end

section
/-! SUPPORT. Reset (70_reset R220, R221), and what a broken duty does (70_reset R230 to R234): the faults, the window in
which the host must not write IN, the early reads of the results. -/

open Sys2Proof.Claims

namespace Sys2Proof.Machine

/-! ### A broken duty (70_reset R230, R231, R233) -/

theorem writeIn_of_window_open {s : State} (h : s.status = .busy ∨ s.endUnseen = true) (i : Nat) (b : Byte) :
    writeIn i b s = .fault (.inWriteDuringCommand i) := by
  simp only [writeIn, if_pos h]

theorem readIn_of_no_value {s : State} {i : Nat} (h : s.inBuf.read i = none) :
    readIn i s = .fault (.inReadNoValue i) := by
  simp only [readIn, h]

theorem readOut_of_busy {s : State} (hb : s.status = .busy) (j : Nat) :
    readOut j s = .fault (.outReadWhileBusy j) := by
  simp only [readOut, if_pos hb]

theorem readOut_outside_output {s : State} {j : Nat} (hb : s.status ≠ .busy)
    (hout : s.status ≠ .ok ∨ s.outLen.toNat ≤ j) : readOut j s = .fault (.outReadUnspecified j) := by
  have hno : ¬ (s.status = .ok ∧ j < s.outLen.toNat) := by
    rintro ⟨hok, hj⟩
    exact hout.elim (absurd hok) (Nat.not_le.2 hj)
  simp only [readOut, if_neg hb, if_neg hno]

/-! ### The result registers while BUSY (70_reset R234) -/

theorem MachineInv.resultWords_of_busy {s : State} (h : MachineInv s) (hb : s.status = .busy) :
    regWord .outLen s = 0#32 ∧ regWord .errCode s = 0#32 ∧ regWord .errPos s = 0#32 := by
  obtain ⟨hcode, hpos, hlen, -⟩ := (resultsFit_busy_iff hb).1 h.results
  exact ⟨hlen, by simp [regWord, errCodeWord, hcode, zext32], hpos⟩

/-! ### The window in which the host must not write IN (70_reset R230; log entry 9) -/

theorem readReg_status (r : Reg) (s : State) : (readReg r s).status = s.status := by
  unfold readReg
  split <;> rfl

theorem pollStatus_status (s : State) : (pollStatus s).status = s.status := by
  unfold pollStatus
  split <;> exact readReg_status .status s

theorem pollStatus_endUnseen (s : State) : (pollStatus s).endUnseen = (readReg .status s).endUnseen := by
  unfold pollStatus
  split <;> rfl

/-- A read of STATUS that shows STATE ≠ BUSY leaves the window closed. -/
theorem readReg_status_closes_window {s : State} (hb : s.status ≠ .busy) :
    (readReg .status s).endUnseen = false := by
  simp [readReg, hb]

/-- No other read of a register closes the window. -/
theorem status_not_busy_of_readReg_closes {r : Reg} {s : State} (hopen : s.endUnseen = true)
    (hclosed : (readReg r s).endUnseen = false) : r = .status ∧ s.status ≠ .busy := by
  by_contra hno
  simp [readReg, if_neg hno, hopen] at hclosed

theorem writeCmd_keeps_window_open {s : State} (hopen : s.endUnseen = true) (w : Word) :
    (writeCmd w s).endUnseen = true := by
  obtain ⟨-, heq⟩ | ⟨-, -, heq⟩ | ⟨-, -, -, heq⟩ | ⟨-, -, i, -, heq⟩ := writeCmd_cases w s <;> simp [heq, hopen]

theorem writeReg_keeps_window_open {s : State} (hopen : s.endUnseen = true) (r : Reg) (w : Word) :
    (writeReg r w s).endUnseen = true := by
  cases r with
  | cmd => exact writeCmd_keeps_window_open hopen w
  | status | inLen | outLen | errCode | errPos | config | maxIn => exact hopen

theorem writeCmd_opens_window {s : State} {w : Word} (hb : s.status ≠ .busy)
    (hbusy : (writeCmd w s).status = .busy) : (writeCmd w s).endUnseen = true := by
  obtain ⟨hb', -⟩ | ⟨-, -, heq⟩ | ⟨-, -, -, heq⟩ | ⟨-, -, i, -, heq⟩ := writeCmd_cases w s
  · exact absurd hb' hb
  · simp [heq] at hbusy
  · simp [heq] at hbusy
  · simp [heq]

/-- Of the host's transactions only a read of STATUS that shows STATE ≠ BUSY closes the window. -/
theorem transact_closes_window {x : Txn} {s t : State} (h : transact x s = .next t) (hopen : s.endUnseen = true)
    (hclosed : t.endUnseen = false) : t.status ≠ .busy ∧ Line.txn x = Line.rd 0x04 := by
  obtain ⟨hwf, hcases⟩ := transact_next h
  obtain ⟨space, offset, width, acc⟩ := x
  obtain ⟨r, rfl, rfl, hreg, rfl⟩ | ⟨r, w, -, -, -, rfl⟩ | ⟨b, -, -, -, rfl⟩ | ⟨w, -, -, -, hseen, -⟩ |
    ⟨b, -, -, -, -, -, rfl⟩ | ⟨w, -, -, rfl⟩ := hcases
  · obtain ⟨rfl, hb⟩ := status_not_busy_of_readReg_closes hopen hclosed
    obtain ⟨⟨rfl, -⟩, -⟩ := (Txn.wf_reg_iff _ _ _ _).1 hwf
    obtain rfl := (regAt_eq_some_iff offset .status).1 hreg
    exact ⟨by rwa [readReg_status], rfl⟩
  · simp [writeReg_keeps_window_open hopen r w] at hclosed
  · simp [hopen] at hclosed
  · simp [hopen] at hseen
  · simp [hopen] at hclosed
  · simp [hopen] at hclosed

/-- A line that closes the window shows the host a STATE other than BUSY, or is reset. -/
theorem performLine_closes_window {l : Line} {s t : State} (h : performLine l s = .next t)
    (hopen : s.endUnseen = true) (hclosed : t.endUnseen = false) :
    t.status ≠ .busy ∧ (l = Line.rd 0x04 ∨ l = .poll ∨ l = .reset) := by
  obtain ⟨rfl, rfl⟩ | ⟨rfl, rfl⟩ | ⟨x, rfl, hx⟩ := performLine_next h
  · simp
  · rw [pollStatus_endUnseen] at hclosed
    obtain ⟨-, hb⟩ := status_not_busy_of_readReg_closes hopen hclosed
    exact ⟨by rwa [pollStatus_status], .inr (.inl rfl)⟩
  · obtain ⟨hb, heq⟩ := transact_closes_window hx hopen hclosed
    exact ⟨hb, .inl heq⟩

/-- A step opens the window whenever it sets BUSY. -/
theorem step_opens_window {s t : State} (h : step s = .next t) (hb : s.status ≠ .busy) (hbusy : t.status = .busy) :
    t.endUnseen = true := by
  cases stepEffect_of_step h with
  | core data hm hb' => exact absurd hb' hb
  | reset rest => simp at hbusy
  | hostSide _ rest hm hkept => exact absurd ((congrArg State.status hkept).symm.trans hbusy) hb
  | cmdWrite w rest => exact writeCmd_opens_window (s := afterTake s rest) hb hbusy
  | inLenWrite | inWrite => exact absurd hbusy hb

/-- The core's step never closes the window, so a step that does performed a line that does. -/
theorem step_closes_window {s t : State} (h : step s = .next t) (hopen : s.endUnseen = true)
    (hclosed : t.endUnseen = false) :
    t.status ≠ .busy ∧ (s.pending.head? = some (Line.rd 0x04) ∨ s.pending.head? = some .poll ∨
      s.pending.head? = some .reset) := by
  obtain ⟨-, -, data, -, rfl⟩ | ⟨-, l, rest, hp, hl⟩ := step_next h
  · rw [finish_onlyResultsChange (latchedInstr s) data s] at hclosed
    simp [hopen] at hclosed
  · simpa [hp] using performLine_closes_window hl hopen hclosed

theorem step_rd_status_closes_window {s t : State} {rest : List Line} (h : step s = .next t)
    (hb : s.status ≠ .busy) (hturn : hostTurn s (Line.rd 0x04) rest) : t.endUnseen = false := by
  rw [step_rd .status hturn] at h
  cases h
  exact readReg_status_closes_window (s := afterTake s rest) hb

theorem step_poll_closes_window {s t : State} {rest : List Line} (h : step s = .next t)
    (hb : s.status ≠ .busy) (hturn : hostTurn s .poll rest) : t.endUnseen = false := by
  rw [step_poll hturn] at h
  cases h
  rw [pollStatus_endUnseen]
  exact readReg_status_closes_window (s := afterTake s rest) hb

/-! ### Reset (70_reset R220, R221) -/

theorem step_reset {s : State} {rest : List Line} (h : hostTurn s .reset rest) :
    step s = .next (resetBlock (afterTake s rest)) :=
  step_line h.1 h.2

theorem step_reset_closes_window {s t : State} {rest : List Line} (h : step s = .next t)
    (hturn : hostTurn s .reset rest) : t.endUnseen = false := by
  rw [step_reset hturn] at h
  cases h
  rfl

theorem machineInv_resetOf {maxIn : Word} (hmax : maxIn.toNat ≤ Config.maxInLenBound) (profile : Profile) :
    MachineInv (State.resetOf maxIn profile) :=
  ⟨rfl, rfl, fun _ hi => absurd rfl hi, hmax, rfl, rfl, rfl, rfl⟩

/-- `MAX_IN` is wide enough for every `MAX_IN_LEN` (00_scope R7). -/
theorem reset_maxIn_toNat : State.reset.maxIn.toNat = Config.maxInLen.val :=
  (BitVec.toNat_ofNat _ 32).trans (Nat.mod_eq_of_lt (Config.maxInLen.isLt.trans (by decide)))

theorem reset_maxIn_le_bound : State.reset.maxIn.toNat ≤ Config.maxInLenBound := by
  rw [reset_maxIn_toNat]
  exact Nat.le_of_lt_succ Config.maxInLen.isLt

/-! ### The obligations -/

/-- Settles O11: every command is a core step, which reads its input first and exists only where it is enabled. -/
theorem coreStepStopsOverUnwrittenInput : Obligations.CoreStepStopsOverUnwrittenInput := by
  refine ⟨fun i s k hb hl hk hnone hlow => ?_, fun i s h => ?_⟩
  · rw [exec_eq]
    exact coreStep_unwritten hb hl hk hnone hlow
  · rw [exec_eq]
    exact coreStep_not_enabled (not_and_or.2 h)

/-- Settles O23: the invariant says that the three registers hold 0 while BUSY. -/
theorem earlyResultReadsReturnZero : Obligations.EarlyResultReadsReturnZero := by
  intro s o rest hinv hb ho hturn
  obtain ⟨r, hr, hword⟩ : ∃ r, o = Reg.offset r ∧ regWord r s = 0#32 := by
    obtain ⟨hlen, hcode, hpos⟩ := hinv.resultWords_of_busy hb
    obtain rfl | rfl | rfl := ho
    · exact ⟨.outLen, rfl, hlen⟩
    · exact ⟨.errCode, rfl, hcode⟩
    · exact ⟨.errPos, rfl, hpos⟩
  subst hr
  exact ⟨_, step_rd r hturn, hword ▸ onlyHostLearns_readReg r s rest⟩

/-- Settles O29: each line is an access of a legal shape, and each access judges the duty before it answers. -/
theorem hostDutyBreachesFault : Obligations.HostDutyBreachesFault := by
  refine ⟨fun s i b rest hi hopen hturn => ?_, fun s j rest hj hb hturn => ?_,
    fun s i rest hi hnone hturn => ?_, fun s j rest hj hb hout hp => ?_⟩
  · rw [step_wrin hturn hi]
    exact writeIn_of_window_open (s := afterTake s rest) hopen i b
  · rw [step_rdout hturn hj]
    exact readOut_of_busy (s := afterTake s rest) hb j
  · rw [step_rdin hturn hi]
    exact readIn_of_no_value (s := afterTake s rest) hnone
  · rw [step_rdout (hostTurn_of_not_busy hb hp) hj]
    exact readOut_outside_output (s := afterTake s rest) hb hout

/-- Settles O30: an accepted CMD write opens the window, and only the three lines named close it. -/
theorem inWriteWindowOpensAndCloses : Obligations.InWriteWindowOpensAndCloses := by
  intro s t h
  refine ⟨fun hbusy hb => step_opens_window h hb hbusy, step_closes_window h, fun hm hline => ?_⟩
  simp only [List.head?_eq_some_iff] at hline
  obtain ⟨hb, ⟨rest, hp⟩ | ⟨rest, hp⟩⟩ | ⟨rest, hp⟩ := hline
  · exact step_rd_status_closes_window h hb ⟨hm, hp⟩
  · exact step_poll_closes_window h hb ⟨hm, hp⟩
  · exact step_reset_closes_window h ⟨hm, hp⟩

/-- Settles O32: the line is performed, and the reset block is not BUSY, so the abandoned command is not resumed. -/
theorem resetGivesResetValues : Obligations.ResetGivesResetValues := by
  intro s rest h
  exact ⟨_, step_reset h, rfl, rfl, rfl, rfl, rfl, rfl, rfl, rfl, fun _ => rfl, fun _ => rfl,
    coreMoves_false_of_not_busy (by simp)⟩

/-- Settles O33: the values are those of `State.resetOf`, and `MAX_IN_LEN` is within its bound. -/
theorem resetStateMeetsInvariant : Obligations.ResetStateMeetsInvariant :=
  ⟨machineInv_resetOf reset_maxIn_le_bound Config.profile, inputReady_of_not_busy RunState.noConfusion, rfl, rfl, rfl,
    rfl, rfl, rfl, reset_maxIn_toNat⟩

end Sys2Proof.Machine
end
